-- ==== Sys2Proof/Word.lean ====
section
/-! DEFINITION. The word types of MTT-DEC (spec/00_scope.md R8, R9). -/

namespace Sys2Proof

/-- An unsigned 8-bit byte, 0 to 255 (R8). -/
abbrev Byte := BitVec 8

/-- The 32-bit integer container, `u32` (R9; `W` = 32 of R7). -/
abbrev Word := BitVec 32

/-- A binary64 bit pattern: sign bit 63, exponent bits 62 to 52, fraction bits 51 to 0 (R82). -/
abbrev F64 := BitVec 64

end Sys2Proof
end

