-- ==== Sys2Proof/Config.lean ====
section
/-! DEFINITION. The parameters of the block (spec/00_scope.md R7): the wired constants, the OPEN
parameters (opaque, no value can be proved of them), and what RSP holds at power-up (opaque). -/

namespace Sys2Proof

/-- The latitude divisor `K_LAT` (R7, R15). -/
def Config.kLat : Nat := 93206

/-- The longitude divisor `K_LON` (R7, R15). -/
def Config.kLon : Nat := 46603

/-- The HDOP divisor `K_HDOP` (R7, R15). -/
def Config.kHdop : Nat := 1000

/-- `PWIN`: the number of leading payload bytes presented at the port (R7). -/
def Config.pwin : Nat := 11

/-- By how much the OPEN parameter `LEN_W` exceeds 4. Free value, log 6. -/
opaque Config.lenWBeyondFour : Nat

/-- `LEN_W`, the width in bits of `req_len`: OPEN, at least 4 (R7). -/
def Config.lenW : Nat := 4 + Config.lenWBeyondFour

/-- `PMAX = 2^LEN_W - 1`, the length of the longest payload (R7). -/
def Config.pmax : Nat := 2 ^ Config.lenW - 1

/-- By how much the OPEN parameter `CH_W` exceeds 1. Free value, log 6. -/
opaque Config.chWBeyondOne : Nat

/-- `CH_W`, the width in bits of `req_chan`: OPEN, at least 1 (R7). -/
def Config.chW : Nat := 1 + Config.chWBeyondOne

/-- `RSP.valid` at power-up: any value (R122). Free value, log 7. -/
opaque Config.powerUpValid : Bool
/-- `RSP.kind` at power-up: any value (R122). Free value, log 7. -/
opaque Config.powerUpKind : BitVec 2
/-- `RSP.fault` at power-up: any value (R122). Free value, log 7. -/
opaque Config.powerUpFault : BitVec 2
/-- `RSP.lat` at power-up: any value (R122). Free value, log 7. -/
opaque Config.powerUpLat : F64
/-- `RSP.lon` at power-up: any value (R122). Free value, log 7. -/
opaque Config.powerUpLon : F64
/-- `RSP.alt` at power-up: any value (R122). Free value, log 7. -/
opaque Config.powerUpAlt : Word
/-- `RSP.hdop` at power-up: any value (R122). Free value, log 7. -/
opaque Config.powerUpHdop : F64

end Sys2Proof
end

