-- ==== Sys2Proof/Syntax.lean ====
section
/-! DEFINITION. The operations of MTT-DEC (spec/00_scope.md R2, R3): one constructor per row of
spec/opcode_table.json, and the encoded form of an operation (spec/30_encoding.md R53, R60). -/

namespace Sys2Proof

/-- The operations. The four tag rows and the parsers read their fields from the payload of the
transaction and have no other operand (R88, R94); the units take the operands the table lists. -/
inductive Instr where
  /-- `POS.1`: tag 1 (R95). -/
  | pos1
  /-- `POS.2`: tag 2 (R96). -/
  | pos2
  /-- `POSX`: tag 5 (R97). -/
  | posx
  /-- `NORESULT`: any other tag (R98); `tag` is the byte that selected it. -/
  | noResult (tag : Byte)
  /-- `DECODE`: one whole transaction on the payload presented (R94). -/
  | decode
  /-- `POS`: the parser tags 1 and 2 share (R89). -/
  | pos
  /-- `XLSB(offset, len)` (R75). -/
  | xlsb (offset : Nat) (len : BitVec 3)
  /-- `XNET(offset, len)` (R76). -/
  | xnet (offset : Nat) (len : BitVec 3)
  /-- `SEXT(v, len)` (R65). -/
  | sext (v : Word) (len : BitVec 3)
  /-- `SCALE.LAT(raw)` (R79); `raw` is the container, read as `s32` (R78). -/
  | scaleLat (raw : Word)
  /-- `SCALE.LON(raw)` (R80). -/
  | scaleLon (raw : Word)
  /-- `SCALE.HDOP(raw)` (R81). -/
  | scaleHdop (raw : Word)
  /-- `SCALE.PASS(raw)` (R83). -/
  | scalePass (raw : Word)
  deriving DecidableEq, Repr

/-- What selects an operation: the bytes of a payload (R53), or the select signals of a unit with
the operands on its other wires (R60). -/
inductive Encoded where
  /-- A payload; byte 0 is the tag. -/
  | payload (bytes : List Byte)
  /-- The extractor: `ord`, and its operands (table format SEL.ORD). -/
  | ordSelect (ord : BitVec 1) (offset : Nat) (len : BitVec 3)
  /-- The sign-extension unit: `len`, and its operand (table format SEL.LEN). -/
  | lenSelect (len : BitVec 3) (v : Word)
  /-- The scaler: `ksel`, and its operand (table format SEL.KSEL). -/
  | kselSelect (ksel : BitVec 2) (raw : Word)
  deriving DecidableEq, Repr

end Sys2Proof
end

