-- ==== Sys2Proof/WellFormed.lean ====
section
/-! DEFINITION. Which terms of Instr stand for an operation the table has. -/

namespace Sys2Proof

/-- The catch-all row stands only for the tags the three exact rows leave (R53, R56); every operand
of the other operations is legal as a term (a `len` outside 1 to 4 is answered by the unit, R67). -/
def Instr.wf : Instr → Bool
  | .noResult tag => tag != 1 && tag != 2 && tag != 5
  | .pos1 | .pos2 | .posx | .decode | .pos => true
  | .xlsb _ _ | .xnet _ _ | .sext _ _ => true
  | .scaleLat _ | .scaleLon _ | .scaleHdop _ | .scalePass _ => true

end Sys2Proof
end

