-- ==== Sys2Proof/Decode.lean ====
section
/-! DEFINITION. From a tag byte or select signals to the operation, and back (spec/30_encoding.md
R53, R55, R56, R60). -/

namespace Sys2Proof

/-- Why bytes select no operation. -/
inductive DecodeError where
  /-- There is no byte 0 to read a tag from. -/
  | emptyPayload
  deriving DecidableEq, Repr

/-- The tag map (R53): the three exact values in order, then the catch-all (R56). -/
def decodeTag (tag : Byte) : Instr :=
  if tag = 0x01#8 then .pos1
  else if tag = 0x02#8 then .pos2
  else if tag = 0x05#8 then .posx
  else .noResult tag

/-- Byte 0 alone selects the operation (R45, R59). -/
def decodePayload : List Byte → Except DecodeError Instr
  | [] => .error .emptyPayload
  | tag :: _ => .ok (decodeTag tag)

/-- `ord`: 0 is `XLSB`, 1 is `XNET` (R60). -/
def decodeOrd (ord : BitVec 1) (offset : Nat) (len : BitVec 3) : Instr :=
  if ord = 0#1 then .xlsb offset len else .xnet offset len

/-- `ksel`: 0 `SCALE.LAT`, 1 `SCALE.LON`, 2 `SCALE.HDOP`, 3 `SCALE.PASS` (R60). -/
def decodeKsel (ksel : BitVec 2) (raw : Word) : Instr :=
  if ksel = 0#2 then .scaleLat raw
  else if ksel = 1#2 then .scaleLon raw
  else if ksel = 2#2 then .scaleHdop raw
  else .scalePass raw

/-- The decoder: total on every encoded form. -/
def decode : Encoded → Except DecodeError Instr
  | .payload bytes => decodePayload bytes
  | .ordSelect ord offset len => .ok (decodeOrd ord offset len)
  | .lenSelect len v => .ok (.sext v len)
  | .kselSelect ksel raw => .ok (decodeKsel ksel raw)

/-- The encoding of an operation: its tag byte or its select pattern (opcode_table.json). `DECODE`
and `POS` have "no encoding of its own". -/
def encode : Instr → Option Encoded
  | .pos1 => some (.payload [0x01#8])
  | .pos2 => some (.payload [0x02#8])
  | .posx => some (.payload [0x05#8])
  | .noResult tag => some (.payload [tag])
  | .decode => none
  | .pos => none
  | .xlsb offset len => some (.ordSelect 0#1 offset len)
  | .xnet offset len => some (.ordSelect 1#1 offset len)
  | .sext v len => some (.lenSelect len v)
  | .scaleLat raw => some (.kselSelect 0b00#2 raw)
  | .scaleLon raw => some (.kselSelect 0b01#2 raw)
  | .scaleHdop raw => some (.kselSelect 0b10#2 raw)
  | .scalePass raw => some (.kselSelect 0b11#2 raw)

/-- The `count` bytes of a number, the lowest byte first: byte `i` of a payload is bits `8*i+7` to
`8*i` (R17). -/
def bytesOf (count w : Nat) : List Byte :=
  (List.range count).map fun i => BitVec.ofNat 8 (w / 256 ^ i)

/-- The payload bytes a table word stands for: its `nbits` bits, then zeros up to the longest
layout, 11 bytes (R47). -/
def tableBytes (nbits w : Nat) : List Byte :=
  bytesOf (max Config.pwin ((nbits + 7) / 8)) (w % 2 ^ nbits)

/-- What the decoder reads from a table word. -/
def decodeTableWord (nbits w : Nat) : Option Instr :=
  (decodePayload (tableBytes nbits w)).toOption

/-- `n` packed into `len` bytes, least significant byte first (R64); the block has no encoder (R6). -/
def packLsb (n : Int) (len : Nat) : List Byte :=
  (List.range len).map fun i => BitVec.ofNat 8 ((n % 2 ^ (8 * len)).toNat >>> (8 * i))

/-- `n` packed into `len` bytes, most significant byte first (R64). -/
def packMsb (n : Int) (len : Nat) : List Byte :=
  (List.range len).map fun i => BitVec.ofNat 8 ((n % 2 ^ (8 * len)).toNat >>> (8 * (len - 1 - i)))

/-- The bytes of the line `POS.1 lat, lon` (tag 1) or `POS.2 lat, lon` (tag 2) of R62. -/
def packP7 (tag : Byte) (lat lon : Int) : List Byte :=
  tag :: (packLsb lat 3 ++ packLsb lon 3)

/-- The bytes of the line `POSX lat, lon, alt, hdop` of R62. -/
def packP11 (lat lon alt hdop : Int) : List Byte :=
  0x05#8 :: (packMsb lat 3 ++ packMsb lon 3 ++ packMsb alt 2 ++ packMsb hdop 2)

end Sys2Proof
end

