-- ==== Sys2Proof/Machine/State.lean ====
section
/-! DEFINITION. The state of MTT-DEC: the response register RSP, the input ports of the coming edge,
what the host will drive after it, and the value a unit called on its own returned. -/

namespace Sys2Proof.Machine

/-- The fault codes (spec/60_exceptions.md R102). A fault is an outcome of the transaction and is
delivered in RSP (R106); it stops nothing (R112), so `step` never answers `Outcome.fault` (log 3).
`transact`, the function-level view with three outcomes, answers with them (R111). -/
inductive Fault where
  /-- A payload byte at index `plen` or above was needed (R37, R103). Raised by `memRead`. Safe: it is
  the spec's own outcome, never a byte. -/
  | range
  /-- A field width outside 1 to 4 was requested (R67, R104). Raised by `sext`, `xlsb`, `xnet`. Safe: it
  is the spec's own outcome, never a value. -/
  | width
  deriving DecidableEq, Repr

/-- Why the model gives no meaning. -/
inductive Refusal where
  /-- The operation has no meaning in the model. Nothing answers with it: every operation has one.
  Safe: a refusal proves nothing about the hardware. -/
  | notModelled (mnemonic : String)
  deriving DecidableEq, Repr

/-- MTTS's `DecodedFix` (R11, R94): what `DECODE` returns when it raises no fault. -/
inductive DecodedFix where
  | noResult
  | position (lat lon : F64)
  | positionExtended (lat lon : F64) (alt : Int) (hdop : F64)
  deriving DecidableEq, Repr

/-- The response register (spec/10_state.md R19), one field per output port of R18: `rsp_valid` is
`valid`, and so on. -/
structure Rsp where
  valid : Bool
  kind  : BitVec 2
  fault : BitVec 2
  lat   : F64
  lon   : F64
  alt   : Word
  hdop  : F64
  deriving DecidableEq, Repr

/-- The idle pattern (R19). -/
def Rsp.idle : Rsp :=
  { valid := false, kind := 0, fault := 0, lat := 0, lon := 0, alt := 0, hdop := 0 }

/-- A byte memory: (address, byte) pairs, addresses strictly rising, no zero byte listed. An
unlisted address reads as 0 (log 5). -/
abbrev Memory := List Host.Cell

/-- A payload (R10, R30): the buffer and `plen`. The bytes at index `plen` and above do not exist,
whatever `mem` lists there (R28). -/
structure Payload where
  mem  : Memory
  plen : Nat
  deriving DecidableEq, Repr

/-- The input ports at one rising edge (R17): `rst`, `req_valid`, `req_len` with the payload
(`payload.plen` is `req_len`, and `reqData` reads `req_data` off `payload.mem`), `req_chan`. `call` is
the model's own: an operation a bench evaluates at this edge at the function level, whatever `reqValid`
is (D2, log 4). -/
structure Edge where
  rst      : Bool
  reqValid : Bool
  payload  : Payload
  reqChan  : Nat
  call     : Option Instr
  deriving DecidableEq, Repr

/-- An edge at which the host asks nothing (the line `IDLE` of R62). -/
def Edge.idle : Edge :=
  { rst := false, reqValid := false, payload := { mem := [], plen := 0 }, reqChan := 0, call := none }

/-- The model's own: what a unit called at the function level returned (log 4). -/
inductive UnitOut where
  /-- No unit was called on its own at the last edge, or its call raised a fault. -/
  | none
  /-- A `u32` (`SEXT`, R65). -/
  | word (v : Word)
  /-- A signed integer (`XLSB`, `XNET`, `SCALE.PASS`; R70, R83). -/
  | int (n : Int)
  /-- A binary64 pattern (`SCALE.LAT`, `SCALE.LON`, `SCALE.HDOP`; R78). -/
  | float (b : F64)
  deriving DecidableEq, Repr

/-- The wired constants (R15). They have no storage; `readConst` reads them. -/
inductive ConstReg where
  | kLat
  | kLon
  | kHdop
  deriving DecidableEq, Repr

end Sys2Proof.Machine

namespace Sys2Proof.Machine

/-- The state. `rsp` is the only storage element (R19). `pins` is what the input ports carry at the
coming edge and `upcoming` what the host drives at the edges after it (log 1, log 2); `unit` is the
model's own (log 4). -/
structure State where
  rsp      : Rsp
  unit     : UnitOut
  pins     : Edge
  upcoming : List Edge
  deriving DecidableEq, Repr

/-- The machine after a reset edge (R27, R121), with a host that asks nothing (log 8). -/
def State.reset : State :=
  { rsp := Rsp.idle, unit := .none, pins := Edge.idle, upcoming := [] }

/-- The machine at power-up, before the first edge: RSP holds any value (R122, log 7). DESIGN CHOICE
(log 16): the spec leaves to the host what the input ports carry at that first edge, a request or a reset
included; here they are those of an idle edge, no further edge is scheduled, no unit value is held. -/
def State.powerUp : State :=
  { rsp := { valid := Config.powerUpValid, kind := Config.powerUpKind, fault := Config.powerUpFault,
             lat := Config.powerUpLat, lon := Config.powerUpLon, alt := Config.powerUpAlt,
             hdop := Config.powerUpHdop }
    unit := .none, pins := Edge.idle, upcoming := [] }

/-- What an edge does, as `selectAction` finds it from the pins (R26). -/
inductive Action where
  /-- RSP takes the idle pattern: a reset, or no request. -/
  | idle
  /-- The operation the tag selects runs, or the one a bench calls. -/
  | run (i : Instr)
  /-- The tag read itself faults. -/
  | fault (f : Fault)
  deriving DecidableEq, Repr

end Sys2Proof.Machine
end

