-- ==== Sys2Proof/Machine/Ops.lean ====
section
/-! DEFINITION. The named operations over memory, the constants and the response register; the one
operation that takes a fault. -/

namespace Sys2Proof.Machine

/-- The byte at an address; 0 where none is listed. -/
def Memory.read : Memory → Nat → Byte
  | [], _ => 0
  | (k, b) :: rest, a => if k = a then b else Memory.read rest a

/-- The host's side only: no operation of the block writes the buffer (R31). -/
def Memory.write : Memory → Nat → Byte → Memory
  | [], a, b => if b = 0 then [] else [(a, b)]
  | (k, c) :: rest, a, b =>
    if a < k then (if b = 0 then (k, c) :: rest else (a, b) :: (k, c) :: rest)
    else if a = k then (if b = 0 then rest else (a, b) :: rest)
    else (k, c) :: Memory.write rest a b

/-- Addresses strictly rising from `lo`, no zero byte listed. -/
def Memory.wfFrom : Nat → Memory → Bool
  | _, [] => true
  | lo, (k, b) :: rest => decide (lo ≤ k) && b != 0 && Memory.wfFrom (k + 1) rest

/-- The canonical form. -/
def Memory.wf (m : Memory) : Bool := Memory.wfFrom 0 m

/-- The memory that holds `bytes` from `start` on. -/
def Memory.ofBytes : Nat → List Byte → Memory
  | _, [] => []
  | start, b :: rest =>
    if b = 0 then Memory.ofBytes (start + 1) rest
    else (start, b) :: Memory.ofBytes (start + 1) rest

/-- The payload of exactly these bytes (the line `RAW` of R62). -/
def Payload.ofBytes (bytes : List Byte) : Payload :=
  { mem := Memory.ofBytes 0 bytes, plen := bytes.length }

/-- `P[i]`, with no range check. -/
def Payload.byte (p : Payload) (a : Nat) : Byte := Memory.read p.mem a

/-- `MemRead(a, 1)` (R10, R37): the one memory primitive of the block. -/
def Payload.memRead (p : Payload) (a : Nat) : Except Fault Byte :=
  if a ≥ p.plen then .error .range else .ok (p.byte a)

/-- The port `req_data` as the buffer gives it: bits `8*i+7` to `8*i` are byte `i`, for `i` from 0
to 10 (R17). -/
def Edge.reqData (e : Edge) : BitVec 88 :=
  (List.range Config.pwin).foldl
    (fun acc i => acc ||| ((e.payload.byte i).setWidth 88 <<< (8 * i))) 0

/-- The payload the ports carry: `req_len` and the 88 bits of `req_data` (R17, R28). -/
def Payload.ofPorts (reqLen : Nat) (reqData : BitVec 88) : Payload :=
  { mem := Memory.ofBytes 0 (bytesOf Config.pwin reqData.toNat), plen := reqLen }

/-- A cycle of the ports, with no call of a bench. -/
def Edge.ofPorts (rst reqValid : Bool) (reqLen : Nat) (reqData : BitVec 88) (reqChan : Nat) : Edge :=
  { rst := rst, reqValid := reqValid, payload := Payload.ofPorts reqLen reqData, reqChan := reqChan,
    call := none }

/-- A request with exactly these bytes on channel `chan` (R62). -/
def Edge.request (bytes : List Byte) (chan : Nat) : Edge :=
  { rst := false, reqValid := true, payload := Payload.ofBytes bytes, reqChan := chan, call := none }

/-- The constants are wired (R15): the same in every state. -/
def readConst (_s : State) : ConstReg → Nat
  | .kLat => Config.kLat
  | .kLon => Config.kLon
  | .kHdop => Config.kHdop

/-- `u32(n)` of an integer (R9). -/
def u32 (n : Int) : Word := BitVec.ofInt 32 n

/-- The number of a fault in `rsp_fault` (R18, R102). -/
def Fault.code : Fault → BitVec 2
  | .range => 1
  | .width => 2

/-- `Enc(o)`: the outcome as RSP shows it (the table of R19). -/
def Rsp.enc : Except Fault DecodedFix → Rsp
  | .ok .noResult => { Rsp.idle with valid := true }
  | .ok (.position lat lon) => { Rsp.idle with valid := true, kind := 1, lat := lat, lon := lon }
  | .ok (.positionExtended lat lon alt hdop) =>
    { Rsp.idle with valid := true, kind := 2, lat := lat, lon := lon, alt := u32 alt, hdop := hdop }
  | .error f => { Rsp.idle with valid := true, kind := 3, fault := f.code }

/-- RSP takes the idle pattern (R26): a reset edge, or an edge with no request. -/
def idleEdge (s : State) : State :=
  { s with rsp := Rsp.idle, unit := .none }

/-- A transaction ends with the outcome `fix`, delivered in RSP (R26). -/
def deliver (fix : DecodedFix) (s : State) : State :=
  { s with rsp := Rsp.enc (.ok fix), unit := .none }

/-- TAKING A FAULT (R106), the one operation for it: RSP shows kind 3 and the code, every value field
is 0; nothing is saved, no mode changes, no control goes anywhere, and there is nothing to return
from (R112). -/
def takeFault (f : Fault) (s : State) : State :=
  { s with rsp := Rsp.enc (.error f), unit := .none }

/-- A unit (an extractor, `SEXT`, a scale operation) called at the function level returns a value: no port
shows it, so RSP takes the idle pattern as at any edge with no request (DESIGN CHOICE, log 4). -/
def returnUnit (v : UnitOut) (s : State) : State :=
  { s with rsp := Rsp.idle, unit := v }

/-- The end of a transaction: its outcome is delivered, its fault is taken (R26, R106). -/
def complete (o : Except Fault DecodedFix) (s : State) : Host.Outcome State Fault Refusal :=
  match o with
  | .ok fix => .next (deliver fix s)
  | .error f => .next (takeFault f s)

/-- The end of a unit's call: its value is returned, its fault is taken (R106). -/
def completeUnit (o : Except Fault UnitOut) (s : State) : Host.Outcome State Fault Refusal :=
  match o with
  | .ok v => .next (returnUnit v s)
  | .error f => .next (takeFault f s)

end Sys2Proof.Machine
end

