-- ==== Sys2Proof/Machine/Flags.lean ====
section
/-! DEFINITION. The block keeps no flag (spec/10_state.md R22). The one test of a bit it makes, the
sign bit of a field, is used at once and stored nowhere. -/

namespace Sys2Proof.Machine

/-- Bit `8*len - 1` of the container, the most significant bit of a `len`-byte value (R65). -/
def signBit (v : Word) (len : BitVec 3) : Bool := v.getLsbD (8 * len.toNat - 1)

end Sys2Proof.Machine
end

