-- ==== Sys2Proof/Machine/Operands.lean ====
section
/-! DEFINITION. Field assembly: the container, both byte orders, the signed reading
(spec/00_scope.md R9, spec/30_encoding.md R49, R50, spec/41_extractors.md R73). -/

namespace Sys2Proof.Machine

/-- `s32(v)`: the two's-complement reading of the container (R9). -/
def s32 (v : Word) : Int :=
  if v.toNat < 2 ^ 31 then (v.toNat : Int) else (v.toNat : Int) - 2 ^ 32

/-- A field width the units accept: 1 to 4 (`LENS` of R7). -/
def lenOk (len : BitVec 3) : Bool := decide (1 ≤ len.toNat) && decide (len.toNat ≤ 4)

/-- The loop of `XLSB` (R75): `count` more bytes from byte number `i` on, each ORed in at `8*i`. -/
def assembleLsb (p : Payload) (offset : Nat) : Nat → Nat → Word → Except Fault Word
  | 0, _, acc => .ok acc
  | count + 1, i, acc =>
    match p.memRead (offset + i) with
    | .error f => .error f
    | .ok b => assembleLsb p offset count (i + 1) (acc ||| (b.setWidth 32 <<< (8 * i)))

/-- The loop of `XNET` (R76): `count` more bytes from index `j` on, each shifted in from below. -/
def assembleNet (p : Payload) : Nat → Nat → Word → Except Fault Word
  | 0, _, acc => .ok acc
  | count + 1, j, acc =>
    match p.memRead j with
    | .error f => .error f
    | .ok b => assembleNet p count (j + 1) ((acc <<< 8) ||| b.setWidth 32)

end Sys2Proof.Machine
end

