-- ==== Sys2Proof/Machine/SignExtension.lean ====
section
/-! DEFINITION. The sign-extension unit (spec/40_sign_extension.md). -/

namespace Sys2Proof.Machine

/-- `SEXT(v, len)` (R65, R66, R67, R69). -/
def sext (v : Word) (len : BitVec 3) : Except Fault Word :=
  if lenOk len = false then .error .width
  else if len.toNat < 4 ∧ signBit v len = true then
    .ok (v ||| (0xFFFFFFFF#32 <<< (8 * len.toNat)))
  else .ok v

/-- The operation `SEXT` (R65). -/
def execSext (v : Word) (len : BitVec 3) (s : State) : Host.Outcome State Fault Refusal :=
  completeUnit ((sext v len).map .word) s

end Sys2Proof.Machine
end

