-- ==== Sys2Proof/Machine/Extractors.lean ====
section
/-! DEFINITION. The multi-byte integer extractors (spec/41_extractors.md). -/

namespace Sys2Proof.Machine

/-- How both extractors end: `SEXT` with the same `len`, read as `s32` (R74). -/
def signedField (acc : Except Fault Word) (len : BitVec 3) : Except Fault Int :=
  match acc with
  | .error f => .error f
  | .ok v => (sext v len).map s32

/-- `XLSB(offset, len)` on the payload `p` (R75); the width guard comes first (R71). -/
def xlsb (p : Payload) (offset : Nat) (len : BitVec 3) : Except Fault Int :=
  if lenOk len = false then .error .width
  else signedField (assembleLsb p offset len.toNat 0 0) len

/-- `XNET(offset, len)` on the payload `p` (R76). -/
def xnet (p : Payload) (offset : Nat) (len : BitVec 3) : Except Fault Int :=
  if lenOk len = false then .error .width
  else signedField (assembleNet p len.toNat offset 0) len

/-- The operation `XLSB` (R75). -/
def execXlsb (offset : Nat) (len : BitVec 3) (s : State) : Host.Outcome State Fault Refusal :=
  completeUnit ((xlsb s.pins.payload offset len).map .int) s

/-- The operation `XNET` (R76). -/
def execXnet (offset : Nat) (len : BitVec 3) (s : State) : Host.Outcome State Fault Refusal :=
  completeUnit ((xnet s.pins.payload offset len).map .int) s

end Sys2Proof.Machine
end

