-- ==== Sys2Proof/Machine/Scaler.lean ====
section
/-! DEFINITION. The fixed-point scaler and its rounding (spec/42_scaler.md). -/

namespace Sys2Proof.Machine

/-- The `e` with `2^e <= n/d < 2^(e+1)`, for positive `n` and `d` (R82). -/
def floorLog2 (n d : Nat) : Int :=
  if d ≤ n then (Nat.log2 (n / d) : Int)
  else -((Nat.log2 ((d + n - 1) / n - 1) : Int) + 1)

/-- The integer nearest to `n/d`, ties to even (R82). -/
def roundHalfEven (n d : Nat) : Nat :=
  if d < 2 * (n % d) ∨ (2 * (n % d) = d ∧ (n / d) % 2 = 1) then n / d + 1 else n / d

/-- The pattern of the number `(-1)^s * r * 2^(e-52)`, for `2^52 <= r < 2^53` (R82). -/
def packF64 (negative : Bool) (e : Int) (r : Nat) : F64 :=
  BitVec.ofBool negative ++ BitVec.ofNat 11 (e + 1023).toNat ++ BitVec.ofNat 52 (r - 2 ^ 52)

/-- `RN64(num/den)` (R82): the binary64 pattern nearest to the exact quotient, ties to even. The
quotients of the scaler are all zero or normal (R84). -/
def rn64 (num : Int) (den : Nat) : F64 :=
  if num = 0 then 0
  else
    let a := num.natAbs
    let e := floorLog2 a den
    let r := roundHalfEven (a * 2 ^ (52 - e).toNat) (den * 2 ^ (e - 52).toNat)
    if r = 2 ^ 53 then packF64 (decide (num < 0)) (e + 1) (2 ^ 52)
    else packF64 (decide (num < 0)) e r

/-- `SCALE.LAT(raw)` (R79). -/
def scaleLat (raw : Int) : F64 := rn64 raw Config.kLat

/-- `SCALE.LON(raw)` (R80). -/
def scaleLon (raw : Int) : F64 := rn64 raw Config.kLon

/-- `SCALE.HDOP(raw)` (R81). -/
def scaleHdop (raw : Int) : F64 := rn64 raw Config.kHdop

/-- `SCALE.PASS(raw)` (R83). -/
def scalePass (raw : Int) : Int := raw

/-- The operation `SCALE.LAT` (R79). -/
def execScaleLat (raw : Word) (s : State) : Host.Outcome State Fault Refusal :=
  completeUnit (.ok (.float (scaleLat (s32 raw)))) s

/-- The operation `SCALE.LON` (R80). -/
def execScaleLon (raw : Word) (s : State) : Host.Outcome State Fault Refusal :=
  completeUnit (.ok (.float (scaleLon (s32 raw)))) s

/-- The operation `SCALE.HDOP` (R81). -/
def execScaleHdop (raw : Word) (s : State) : Host.Outcome State Fault Refusal :=
  completeUnit (.ok (.float (scaleHdop (s32 raw)))) s

/-- The operation `SCALE.PASS` (R83). -/
def execScalePass (raw : Word) (s : State) : Host.Outcome State Fault Refusal :=
  completeUnit (.ok (.int (scalePass (s32 raw)))) s

end Sys2Proof.Machine
end

