-- ==== Sys2Proof/Machine/Parsers.lean ====
section
/-! DEFINITION. The format parsers (spec/43_format_parsers.md). -/

namespace Sys2Proof.Machine

/-- The parser `POS` (R89): all of its fields or a fault (R92). -/
def pos (p : Payload) : Except Fault DecodedFix := do
  let rawLat ← xlsb p 1 3
  let rawLon ← xlsb p 4 3
  return .position (scaleLat rawLat) (scaleLon rawLon)

/-- The parser `POSX` (R90). -/
def posx (p : Payload) : Except Fault DecodedFix := do
  let rawLat ← xnet p 1 3
  let rawLon ← xnet p 4 3
  let rawAlt ← xnet p 7 2
  let rawHdop ← xnet p 9 2
  return .positionExtended (scaleLat rawLat) (scaleLon rawLon) (scalePass rawAlt) (scaleHdop rawHdop)

/-- The operation `POS` (R89). The spec gives `POS` no place at the ports. DESIGN CHOICE (log 4): called
by a bench on its own it is a transaction, and RSP shows `Enc` of its outcome, also with `req_valid = 0`. -/
def execPos (s : State) : Host.Outcome State Fault Refusal := complete (pos s.pins.payload) s

end Sys2Proof.Machine
end

