-- ==== Sys2Proof/Machine/Dispatcher.lean ====
section
/-! DEFINITION. The payload format dispatcher (spec/44_dispatcher.md): `DECODE` and its four arms. -/

namespace Sys2Proof.Machine

/-- `DECODE(P, plen, chan)` (R94); `chan` is not consulted (R99). -/
def decodeFix (p : Payload) (_chan : Nat) : Except Fault DecodedFix := do
  let tag ← p.memRead 0
  if tag = 0x01#8 then pos p
  else if tag = 0x02#8 then pos p
  else if tag = 0x05#8 then posx p
  else return .noResult

/-- One evaluation of `DECODE` as a step with three outcomes (R111, R136): a contract violation is a
fault, never a value. -/
def transact (p : Payload) (chan : Nat) : Host.Outcome DecodedFix Fault Refusal :=
  match decodeFix p chan with
  | .ok fix => .next fix
  | .error f => .fault f

/-- The arm of tag 1 (R95). -/
def execPos1 (s : State) : Host.Outcome State Fault Refusal := complete (pos s.pins.payload) s

/-- The arm of tag 2 (R96): the same parser. -/
def execPos2 (s : State) : Host.Outcome State Fault Refusal := complete (pos s.pins.payload) s

/-- The arm of tag 5 (R97). -/
def execPosx (s : State) : Host.Outcome State Fault Refusal := complete (posx s.pins.payload) s

/-- The arm of every other tag (R98): no other byte is read, whatever the tag. -/
def execNoResult (_tag : Byte) (s : State) : Host.Outcome State Fault Refusal :=
  complete (.ok .noResult) s

/-- The operation `DECODE` on the payload and channel presented (R94, R26). DESIGN CHOICE (log 4): called
by a bench on its own it shows `Enc` of its outcome in RSP too, also with `req_valid = 0`. -/
def execDecode (s : State) : Host.Outcome State Fault Refusal :=
  complete (decodeFix s.pins.payload s.pins.reqChan) s

end Sys2Proof.Machine
end

