-- ==== Sys2Proof/Machine/Dispatch.lean ====
section
/-! DEFINITION. One arm per operation. -/

namespace Sys2Proof.Machine

def exec (i : Instr) (s : State) : Host.Outcome State Fault Refusal :=
  match i with
  | .pos1 => Sys2Proof.Machine.execPos1 s
  | .pos2 => Sys2Proof.Machine.execPos2 s
  | .posx => Sys2Proof.Machine.execPosx s
  | .noResult tag => Sys2Proof.Machine.execNoResult tag s
  | .decode => Sys2Proof.Machine.execDecode s
  | .pos => Sys2Proof.Machine.execPos s
  | .xlsb offset len => Sys2Proof.Machine.execXlsb offset len s
  | .xnet offset len => Sys2Proof.Machine.execXnet offset len s
  | .sext v len => Sys2Proof.Machine.execSext v len s
  | .scaleLat raw => Sys2Proof.Machine.execScaleLat raw s
  | .scaleLon raw => Sys2Proof.Machine.execScaleLon raw s
  | .scaleHdop raw => Sys2Proof.Machine.execScaleHdop raw s
  | .scalePass raw => Sys2Proof.Machine.execScalePass raw s

end Sys2Proof.Machine
end

