-- ==== Sys2Proof/Machine/Fetch.lean ====
section
/-! DEFINITION. What an edge does and what follows it (spec/10_state.md R26): the selection made from
the pins, the tag read, and the move to the host's next edge. -/

namespace Sys2Proof.Machine

/-- The tag read (R94): byte 0 selects the operation, or faults where there is no byte 0. -/
def fetchTag (p : Payload) : Action :=
  match p.memRead 0 with
  | .ok tag => .run (decodeTag tag)
  | .error f => .fault f

/-- R26: `rst` wins over everything (R123); then a bench's call, the model's choice (log 4); then a
request; else idle. -/
def selectAction (e : Edge) : Action :=
  if e.rst = true then .idle
  else match e.call with
    | some i => .run i
    | none => if e.reqValid = true then fetchTag e.payload else .idle

/-- The edge is over: the pins carry what the host drives next, and nothing when it has no more to
ask (log 2). -/
def toNextEdge (s : State) : State :=
  match s.upcoming with
  | [] => { s with pins := Edge.idle }
  | e :: rest => { s with pins := e, upcoming := rest }

/-- The edge is over after an operation that answered a next state. -/
def afterEdge : Host.Outcome State Fault Refusal → Host.Outcome State Fault Refusal
  | .next s => .next (toNextEdge s)
  | .fault f => .fault f
  | .refused r => .refused r

/-- A request with exactly these bytes on the pins, at the coming edge (log 10). -/
def presentBytes (bytes : List Byte) (s : State) : State :=
  { s with pins := Edge.request bytes 0 }

end Sys2Proof.Machine
end

