-- ==== Sys2Proof/Machine/Step.lean ====
section
/-! DEFINITION. One rising edge of `clk` (spec/10_state.md R26). -/

namespace Sys2Proof.Machine

/-- The step: RSP takes what the inputs sampled at this edge give, and the host's next edge follows. -/
def step (s : State) : Host.Outcome State Fault Refusal :=
  match selectAction s.pins with
  | .idle => .next (toNextEdge (idleEdge s))
  | .fault f => .next (toNextEdge (takeFault f s))
  | .run i => afterEdge (exec i s)

/-- `s` with the payload a table word stands for on the pins: the next edge runs it (log 10). -/
def State.withFetchWord (s : State) (nbits w : Nat) : State :=
  presentBytes (tableBytes nbits w) s

end Sys2Proof.Machine
end

