-- ==== Sys2Proof/Safety.lean ====
section
/-! DEFINITION. The terms claims are stated in: the host's contract, the response patterns written
out, the value of a field and the rounding of an exact quotient as the spec words them, and the
machine's invariant. -/

namespace Sys2Proof.Safety

open Sys2Proof.Machine

/-- A request is sampled at the coming edge: no reset, no bench's call, `req_valid = 1` (R26). -/
def Requests (s : State) : Prop :=
  s.pins.rst = false ∧ s.pins.call = none ∧ s.pins.reqValid = true

/-- What the pins carry after the coming edge. -/
def nextPins (s : State) : Edge := s.upcoming.headD Edge.idle

/-- What the host still has to drive after the coming edge. -/
def nextUpcoming (s : State) : List Edge := s.upcoming.tail

/-- The state an edge leaves that puts `r` into RSP and `u` on the unit's wires. -/
def edgeLeaves (s : State) (r : Rsp) (u : UnitOut) : State :=
  { rsp := r, unit := u, pins := nextPins s, upcoming := nextUpcoming s }

/-- A next state is answered, and RSP holds `r` in it. -/
def Responds (o : Host.Outcome State Fault Refusal) (r : Rsp) : Prop := ∃ t, o = .next t ∧ t.rsp = r

/-- The idle row of the table of R19. -/
def rspIdle : Rsp :=
  { valid := false, kind := 0, fault := 0, lat := 0, lon := 0, alt := 0, hdop := 0 }

/-- The `NoResult` row of the table of R19. -/
def rspNoResult : Rsp :=
  { valid := true, kind := 0, fault := 0, lat := 0, lon := 0, alt := 0, hdop := 0 }

/-- The `Position(lat, lon)` row of the table of R19. -/
def rspPosition (lat lon : F64) : Rsp :=
  { valid := true, kind := 1, fault := 0, lat := lat, lon := lon, alt := 0, hdop := 0 }

/-- The `PositionExtended(lat, lon, alt, hdop)` row of the table of R19. -/
def rspExtended (lat lon : F64) (alt : Int) (hdop : F64) : Rsp :=
  { valid := true, kind := 2, fault := 0, lat := lat, lon := lon, alt := BitVec.ofInt 32 alt,
    hdop := hdop }

/-- The `Fault(RANGE)` row of the table of R19. -/
def rspRange : Rsp :=
  { valid := true, kind := 3, fault := 1, lat := 0, lon := 0, alt := 0, hdop := 0 }

/-- The `Fault(WIDTH)` row of the table of R19. -/
def rspWidth : Rsp :=
  { valid := true, kind := 3, fault := 2, lat := 0, lon := 0, alt := 0, hdop := 0 }

/-- RSP holds the encoding of an outcome or the idle pattern (R19). -/
def LegitRsp (r : Rsp) : Prop := r = Rsp.idle ∨ ∃ o, r = Rsp.enc o

/-- Byte 0 selects the P7 layout (R45). -/
abbrev tagIsP7 (p : Payload) : Prop := p.byte 0 = 0x01#8 ∨ p.byte 0 = 0x02#8

/-- Byte 0 selects the P11 layout (R45). -/
abbrev tagIsP11 (p : Payload) : Prop := p.byte 0 = 0x05#8

/-- The caller's contract (R126). -/
def MeetsContract (p : Payload) : Prop :=
  1 ≤ p.plen ∧ (tagIsP7 p → 7 ≤ p.plen) ∧ (tagIsP11 p → 11 ≤ p.plen)

/-- R49: the pattern of a field, least significant byte first. -/
def assembledLsb (p : Payload) (offset len : Nat) : Nat :=
  ∑ i ∈ Finset.range len, (p.byte (offset + i)).toNat * 2 ^ (8 * i)

/-- R50: the pattern of a field, most significant byte first. -/
def assembledNet (p : Payload) (offset len : Nat) : Nat :=
  ∑ i ∈ Finset.range len, (p.byte (offset + i)).toNat * 2 ^ (8 * (len - 1 - i))

/-- R51: the two's-complement reading of a pattern of `bits` bits. -/
def signedOf (bits u : Nat) : Int :=
  if u < 2 ^ (bits - 1) then (u : Int) else (u : Int) - 2 ^ bits

/-- The signed value of a field in LSB order. -/
def fieldLsb (p : Payload) (offset len : Nat) : Int := signedOf (8 * len) (assembledLsb p offset len)

/-- The signed value of a field in network order. -/
def fieldNet (p : Payload) (offset len : Nat) : Int := signedOf (8 * len) (assembledNet p offset len)

/-- The response to a P7 payload, byte by byte (R46, R51, R52, R19). -/
def answerP7 (p : Payload) : Rsp :=
  rspPosition
    (rn64 (signedOf 24 ((p.byte 1).toNat + 256 * (p.byte 2).toNat + 65536 * (p.byte 3).toNat)) 93206)
    (rn64 (signedOf 24 ((p.byte 4).toNat + 256 * (p.byte 5).toNat + 65536 * (p.byte 6).toNat)) 46603)

/-- The response to a P11 payload, byte by byte (R47, R51, R52, R19). -/
def answerP11 (p : Payload) : Rsp :=
  rspExtended
    (rn64 (signedOf 24 (65536 * (p.byte 1).toNat + 256 * (p.byte 2).toNat + (p.byte 3).toNat)) 93206)
    (rn64 (signedOf 24 (65536 * (p.byte 4).toNat + 256 * (p.byte 5).toNat + (p.byte 6).toNat)) 46603)
    (signedOf 16 (256 * (p.byte 7).toNat + (p.byte 8).toNat))
    (rn64 (signedOf 16 (256 * (p.byte 9).toNat + (p.byte 10).toNat)) 1000)

/-- What RSP takes from the inputs of an edge with no bench's call (R26). -/
def answer (e : Edge) : Rsp :=
  if e.rst = true then rspIdle
  else if e.reqValid = true then Rsp.enc (decodeFix e.payload e.reqChan)
  else rspIdle

/-- The last line of R82: `(s << 63) | ((e + 1023) << 52) | (r - 2^52)`. -/
def patternOf (negative : Prop) [Decidable negative] (e r : ℤ) : F64 :=
  BitVec.ofInt 64 ((if negative then 2 ^ 63 else 0) + (e + 1023) * 2 ^ 52 + (r - 2 ^ 52))

/-- R82 on the exact rational `q`, for the exponent `e` of `|q|`. -/
def roundedAt (q : ℚ) (e : ℤ) : F64 :=
  let m : ℚ := |q| * (2 : ℚ) ^ (52 - e)
  let r : ℤ := ⌊m⌋
  let f : ℚ := m - r
  let r' : ℤ := if 1 / 2 < f ∨ (f = 1 / 2 ∧ r % 2 = 1) then r + 1 else r
  if r' = 2 ^ 53 then patternOf (q < 0) (e + 1) (2 ^ 52) else patternOf (q < 0) e r'

/-- `b` is `RN64(q)` as R82 defines it. -/
def IsRn64 (q : ℚ) (b : F64) : Prop :=
  (q = 0 ∧ b = 0) ∨
    (q ≠ 0 ∧ ∃ e : ℤ, (2 : ℚ) ^ e ≤ |q| ∧ |q| < (2 : ℚ) ^ (e + 1) ∧ b = roundedAt q e)

/-- The exponent field, bits 62 to 52. -/
def expField (b : F64) : Nat := (b.extractLsb' 52 11).toNat

/-- A normal number: an exponent field that is neither all zeros nor all ones (R84). -/
def IsNormal (b : F64) : Prop := expField b ≠ 0 ∧ expField b ≠ 2047

/-- The number a normal pattern denotes: `(-1)^s * R * 2^(e-52)` (R82). -/
def normalValue (b : F64) : ℚ :=
  (if b.getLsbD 63 then (-1 : ℚ) else 1) * ((2 ^ 52 + (b.extractLsb' 0 52).toNat : ℕ) : ℚ) *
    (2 : ℚ) ^ ((expField b : ℤ) - 1075)

/-- A divisor of the scaler with the odd part R85 gives it, and the raw values a payload gives that
divisor's fields (R79, R80, R81). -/
def ScalerCase (k odd : Nat) (raw : Int) : Prop :=
  ((k = 93206 ∧ odd = 46603 ∨ k = 46603 ∧ odd = 46603) ∧ -8388608 ≤ raw ∧ raw ≤ 8388607) ∨
    ((k = 1000 ∧ odd = 125) ∧ -32768 ≤ raw ∧ raw ≤ 32767)

/-- `DECODE` may read the same of both payloads (R100): `plen` and byte 0 always, bytes 1 to 6 under
tags 1 and 2, bytes 1 to 10 under tag 5. -/
def SameReads (p q : Payload) : Prop :=
  p.plen = q.plen ∧ p.byte 0 = q.byte 0 ∧
    (tagIsP7 p → ∀ i, 1 ≤ i → i ≤ 6 → i < p.plen → p.byte i = q.byte i) ∧
    (tagIsP11 p → ∀ i, 1 ≤ i → i ≤ 10 → i < p.plen → p.byte i = q.byte i)

/-- The edge's payload is in the model's canonical form (log 5) and its inputs, held as natural numbers
(log 6), fit the ports of R7 and R17. -/
def LegalEdge (e : Edge) : Prop :=
  Memory.wf e.payload.mem = true ∧ e.payload.plen ≤ Config.pmax ∧ e.reqChan < 2 ^ Config.chW

/-- The machine's invariant: RSP holds an outcome or the idle pattern, every edge is legal. -/
def Inv (s : State) : Prop :=
  LegitRsp s.rsp ∧ LegalEdge s.pins ∧ ∀ e ∈ s.upcoming, LegalEdge e

end Sys2Proof.Safety
end

