-- ==== Sys2Proof/Certificates/Slice0/Obligations.lean ====
section
/-! DEFINITION. The statements for the provers, from the numbered rules of spec/. -/

open Sys2Proof Sys2Proof.Machine Sys2Proof.Safety

/-! ### Reset and the edge (spec/10_state.md, spec/70_reset_and_hazards.md) -/

/-- R121: at an edge with `rst = 1` RSP takes the idle pattern, the constants are the same before and
after, and there is nothing else: one such edge is a complete reset. -/
def Obligations.ResetEdgeIsCompleteReset : Prop :=
  ∀ s : State, s.pins.rst = true →
    ∃ t, step s = .next t ∧
      t.rsp = { valid := false, kind := 0, fault := 0, lat := 0, lon := 0, alt := 0, hdop := 0 } ∧
      t.rsp = State.reset.rsp ∧ ∀ c, readConst t c = readConst s c

/-- R123: reset wins over a request at the same edge, which leaves no trace; a request at the edge
before is answered in the cycle between, and the reset edge then replaces the answer. -/
def Obligations.ResetWinsOverRequest : Prop :=
  (∀ (s : State) (p : Payload) (chan : Nat), s.pins.rst = true →
    let asking := { s with pins := { s.pins with reqValid := true, payload := p, reqChan := chan } }
    Responds (step asking) rspIdle ∧ step asking = step s) ∧
  ∀ s : State, Requests s →
    ∃ t, step s = .next t ∧ t.rsp = Rsp.enc (decodeFix s.pins.payload s.pins.reqChan) ∧
      t.rsp.valid = true ∧ (t.pins.rst = true → Responds (step t) rspIdle)

/-- R26, its last line: an edge with neither reset nor request gives the idle pattern. -/
def Obligations.EdgeWithoutRequestIsIdle : Prop :=
  ∀ s : State, s.pins.rst = false → s.pins.call = none → s.pins.reqValid = false →
    Responds (step s) rspIdle

/-- R26: the step, with the payload read off the ports. -/
def Obligations.StepIsTheEdgeRule : Prop :=
  (∀ s : State, s.pins.call = none →
    Responds (step s)
      (if s.pins.rst = true then rspIdle
       else if s.pins.reqValid = true then Rsp.enc (decodeFix s.pins.payload s.pins.reqChan)
       else rspIdle)) ∧
  ∀ (rst valid : Bool) (reqLen : Nat) (reqData : BitVec 88) (chan i : Nat),
    (Edge.ofPorts rst valid reqLen reqData chan).payload.plen = reqLen ∧
    (Edge.ofPorts rst valid reqLen reqData chan).reqChan = chan ∧
    (i < min reqLen 11 →
      (Edge.ofPorts rst valid reqLen reqData chan).payload.memRead i =
        .ok (reqData.extractLsb' (8 * i) 8))

/-- R19, the table: RSP's pattern for every outcome. -/
def Obligations.EncodingOfOutcomes : Prop :=
  Rsp.idle = rspIdle ∧
  Rsp.enc (.ok .noResult) = rspNoResult ∧
  (∀ lat lon, Rsp.enc (.ok (.position lat lon)) = rspPosition lat lon) ∧
  (∀ lat lon alt hdop,
    Rsp.enc (.ok (.positionExtended lat lon alt hdop)) = rspExtended lat lon alt hdop) ∧
  Rsp.enc (.error .range) = rspRange ∧
  Rsp.enc (.error .width) = rspWidth

/-- R19: after every edge, from any content at all, RSP holds an outcome's encoding or the idle pattern;
`fault` is nonzero exactly when `kind = 3`, and 3 is never produced. That this takes in an edge with a
bench's call, and what RSP shows after one, is the model's choice (log 4). -/
def Obligations.EveryEdgeLeavesAnOutcome : Prop :=
  ∀ s t : State, step s = .next t →
    LegitRsp t.rsp ∧ (t.rsp.fault ≠ 0 ↔ t.rsp.kind = 3) ∧ t.rsp.fault ≠ 3 ∧
    (t.rsp.valid = false → t.rsp = rspIdle)

/-- A step runs the decoded operation: the one byte 0 of a request selects (R94, R26). The model's choices,
not the spec's: a bench's call runs the operation called (log 4); `withFetchWord` puts a table word on the
pins as a request (log 10); around the operation only the pins move on to the host's next edge, held in
State (log 1) and idle past the end of the host's list (log 2). -/
def Obligations.StepRunsDecodedOperation : Prop :=
  (∀ (s : State) (tag : Byte), Requests s → s.pins.payload.memRead 0 = .ok tag →
    step s = afterEdge (exec (decodeTag tag) s)) ∧
  (∀ (s : State) (i : Instr), s.pins.rst = false → s.pins.call = some i →
    step s = afterEdge (exec i s)) ∧
  (∀ (s : State) (nbits w : Nat) (i : Instr), decodeTableWord nbits w = some i →
    step (s.withFetchWord nbits w) = afterEdge (exec i (s.withFetchWord nbits w))) ∧
  ∀ t : State, afterEdge (.next t) = .next (edgeLeaves t t.rsp t.unit)

/-- R103, first row: an empty payload's tag read is out of range, whatever the buffer lists. -/
def Obligations.EmptyRequestIsRangeFault : Prop :=
  ∀ s : State, Requests s → s.pins.payload.plen = 0 → Responds (step s) rspRange

/-- R133, R130: over a run of edges with no bench's call, RSP after edge `k` holds the answer to the
inputs of edge `k` and to nothing else. That the host's edges stand in State (log 1), and that past its last
edge they are idle (log 2), is the model's choice. -/
def Obligations.RunAnswersEveryEdge : Prop :=
  ∀ (k : Nat) (s : State), (∀ e ∈ s.pins :: s.upcoming, e.call = none) →
    ∃ t, core.run (k + 1) s = .next t ∧
      t.rsp = answer ((s.pins :: s.upcoming).getD k Edge.idle) ∧
      t.pins = (s.pins :: s.upcoming).getD (k + 1) Edge.idle

/-- R136, R131, R109: every edge answers a next state, and no run stops. That the next state carries the
host's next inputs, a list in State (log 1), idle past its end (log 2), is the model's choice. -/
def Obligations.TheBlockNeverStops : Prop :=
  (∀ s : State, ∃ t, step s = .next t ∧ t.pins = nextPins s ∧ t.upcoming = nextUpcoming s) ∧
  ∀ (n : Nat) (s : State), ∃ t, core.run n s = .next t

/-- R122, R25: an edge reads nothing of the old RSP, so whatever the host drives at the first edge after
power-up, that edge is as after reset. The last clause is about the model's own `State.powerUp`, whose pins
are idle (log 16) and whose RSP is free (log 7), and `State.reset` (log 8): both are the model's choice. -/
def Obligations.EdgeForgetsOldResponse : Prop :=
  (∀ (s : State) (r : Rsp) (u : UnitOut), step { s with rsp := r, unit := u } = step s) ∧
  (∀ (e : Edge) (rest : List Edge),
    step { State.powerUp with pins := e, upcoming := rest } =
      step { State.reset with pins := e, upcoming := rest }) ∧
  step State.powerUp = .next State.reset

/-- R112, R127: whatever the edge before did, a fault among it, the next edge is as if it had not happened.
That the next edge's inputs come from the schedule in State (log 1), idle past its end (log 2), and that an
edge can carry a bench's call (log 4), is the model's choice. -/
def Obligations.FaultLeavesNothingBehind : Prop :=
  ∀ (s t t' : State) (e e' : Edge),
    step { s with pins := e } = .next t → step { s with pins := e' } = .next t' →
    step t = step t'

/-- The invariant holds at `State.reset`: RSP by R27 and R19; the pins and the schedule because the model
gives `State.reset` an idle edge and no further edges, its own choice (log 8), as are the form of the buffer
(log 5) and natural numbers bounded by their ports' widths (log 6). -/
def Obligations.ResetMeetsInvariant : Prop := Inv State.reset

/-- Every step keeps the invariant. RSP holds an outcome or the idle pattern (R19; after a bench's call too,
log 4). The rest is about the model's own way of holding the host's inputs, which no rule gives: the inputs
and the schedule stand in State (log 1), past its end an edge is idle (log 2), a payload buffer is a sparse
list in canonical form (log 5), and `req_len` and `req_chan` are natural numbers that fit the ports of R17
and R7 (log 6). -/
def Obligations.StepKeepsInvariant : Prop :=
  ∀ s t : State, Inv s → step s = .next t → Inv t

/-- R15: the wired constants, the same in every state, and the scaler divides by them. -/
def Obligations.ConstantsAreWired : Prop :=
  ∀ s : State, readConst s .kLat = 93206 ∧ readConst s .kLon = 46603 ∧ readConst s .kHdop = 1000 ∧
    ∀ raw : Int, scaleLat raw = rn64 raw (readConst s .kLat) ∧
      scaleLon raw = rn64 raw (readConst s .kLon) ∧ scaleHdop raw = rn64 raw (readConst s .kHdop)

/-! ### The payload buffer (spec/20_memory.md) -/

/-- R37: a read at index `plen` or above raises `Fault(RANGE)` and never gives a byte; below, it gives
the buffer's byte. -/
def Obligations.ReadOutOfRangeFaults : Prop :=
  ∀ (p : Payload) (a : Nat),
    (p.plen ≤ a → p.memRead a = .error .range) ∧
    (a < p.plen → p.memRead a = .ok (Memory.read p.mem a))

/-- The frame of every operation (R31, R38, R20, R15): the buffer, byte by byte, and the constants are as
before, as are the pins and the host's schedule, which the model holds in State (log 1). What is said of
the unit value, and of RSP after a unit's call or after `POS` called alone, is the model's choice (log 4):
a transaction leaves a valid response and no unit value, a unit's call its value with RSP idle or its
fault. -/
def Obligations.OperationsLeaveInputsAlone : Prop :=
  ∀ (i : Instr) (s t : State), exec i s = .next t →
    t.pins = s.pins ∧ t.upcoming = s.upcoming ∧
    (∀ a, Memory.read t.pins.payload.mem a = Memory.read s.pins.payload.mem a) ∧
    (∀ c, readConst t c = readConst s c) ∧
    (i ∈ [.pos1, .pos2, .posx, .decode, .pos] ∨ (∃ tag, i = .noResult tag) →
      t.unit = .none ∧ t.rsp.valid = true) ∧
    (¬(i ∈ [.pos1, .pos2, .posx, .decode, .pos] ∨ (∃ tag, i = .noResult tag)) →
      t.unit ≠ .none ∧ t.rsp = rspIdle ∨
        t.unit = .none ∧ (t.rsp = rspRange ∨ t.rsp = rspWidth))

/-- R35: both orders of a 3-byte and of a 2-byte field, and when they agree. -/
def Obligations.ByteOrdersOfOneField : Prop :=
  ∀ (p : Payload) (o : Nat) (b0 b1 b2 : Nat),
    b0 = (p.byte o).toNat → b1 = (p.byte (o + 1)).toNat → b2 = (p.byte (o + 2)).toNat →
    (o + 3 ≤ p.plen →
      xlsb p o 3 = .ok (signedOf 24 (b0 + 256 * b1 + 65536 * b2)) ∧
      xnet p o 3 = .ok (signedOf 24 (65536 * b0 + 256 * b1 + b2)) ∧
      (xlsb p o 3 = xnet p o 3 ↔ b0 = b2)) ∧
    (o + 2 ≤ p.plen →
      xlsb p o 2 = .ok (signedOf 16 (b0 + 256 * b1)) ∧
      xnet p o 2 = .ok (signedOf 16 (256 * b0 + b1)))

/-- R28: bits of `req_data` at index `req_len` and above are ignored; bytes at index 11 and above are
read by no request; with `req_valid = 0` every other `req_*` port is ignored. -/
def Obligations.RequestWindowIgnoresTheRest : Prop :=
  (∀ (s : State) (rst valid : Bool) (reqLen : Nat) (d d' : BitVec 88) (chan : Nat),
    (∀ j, j < 8 * reqLen → d.getLsbD j = d'.getLsbD j) →
    step { s with pins := Edge.ofPorts rst valid reqLen d chan } =
      step { s with pins := Edge.ofPorts rst valid reqLen d' chan }) ∧
  (∀ (s : State) (p : Payload), s.pins.call = none → p.plen = s.pins.payload.plen →
    (∀ i, i < min p.plen 11 → p.byte i = s.pins.payload.byte i) →
    step { s with pins := { s.pins with payload := p } } = step s) ∧
  ∀ (s : State) (p : Payload) (chan : Nat), s.pins.call = none → s.pins.reqValid = false →
    step { s with pins := { s.pins with payload := p, reqChan := chan } } = step s

/-- R17: the port `req_data` of a cycle carries the 88 bits the host put there. That the buffer which holds
them is a sparse list of bytes is the model's choice (log 5). -/
def Obligations.RequestDataReadsBack : Prop :=
  ∀ (rst valid : Bool) (reqLen : Nat) (d : BitVec 88) (chan : Nat),
    (Edge.ofPorts rst valid reqLen d chan).reqData = d

/-! ### Encodings (spec/30_encoding.md) -/

/-- Words written out from R53 and R60: tag bytes and select patterns. That a unit's encoded form is its
select with the operands on its other wires is the model's choice (log 14). -/
def Obligations.WrittenOutWordsDecode : Prop :=
  decodeTableWord 8 0x01 = some .pos1 ∧ decodeTableWord 8 0x02 = some .pos2 ∧
  decodeTableWord 8 0x05 = some .posx ∧ decodeTableWord 8 0x81 = some (.noResult 0x81#8) ∧
  decode (.payload []) = .error .emptyPayload ∧
  decode (.ordSelect 1#1 7 2#3) = .ok (.xnet 7 2#3) ∧
  decode (.lenSelect 3#3 0xFFD4E0#32) = .ok (.sext 0xFFD4E0#32 3#3) ∧
  decode (.kselSelect 2#2 1000#32) = .ok (.scaleHdop 1000#32)

/-- R56: the three exact rows first (mask 0xFF), then the catch-all (mask 0x00), which matches
whatever the first three do not. -/
def Obligations.TagRowsMatchInOrder : Prop :=
  ∀ tag : Byte, decodeTag tag =
    if tag &&& 0xFF#8 = 0x01#8 then .pos1
    else if tag &&& 0xFF#8 = 0x02#8 then .pos2
    else if tag &&& 0xFF#8 = 0x05#8 then .posx
    else if tag &&& 0x00#8 = 0x00#8 then .noResult tag
    else decodeTag tag

/-- Decode and encode agree: on every well-formed operation that has an encoding, and on every tag (R53,
R60). The encoded form of a unit's operation is the model's choice (log 14). -/
def Obligations.DecodeUndoesEncode : Prop :=
  (∀ (i : Instr) (e : Encoded), i.wf = true → encode i = some e → decode e = .ok i) ∧
  (∀ (tag : Byte) (rest : List Byte), ∃ i, decode (.payload (tag :: rest)) = .ok i ∧
    i.wf = true ∧ encode i = some (.payload [tag])) ∧
  ∀ i : Instr, encode i = none → i = .decode ∨ i = .pos

/-- R64: packing `n` into `len` bytes by the rule's formula, in either order, and extracting in that
order recovers `n`; and the rule's example. -/
def Obligations.PackedFieldsAreRecovered : Prop :=
  (∀ (p : Payload) (offset : Nat) (len : BitVec 3) (n : Int), 1 ≤ len.toNat → len.toNat ≤ 4 →
    -(2 ^ (8 * len.toNat - 1)) ≤ n → n < 2 ^ (8 * len.toNat - 1) →
    offset + len.toNat ≤ p.plen →
    ((∀ i, i < len.toNat → (p.byte (offset + i)).toNat =
        (n % 2 ^ (8 * len.toNat)).toNat >>> (8 * i) % 256) → xlsb p offset len = .ok n) ∧
    ((∀ i, i < len.toNat → (p.byte (offset + i)).toNat =
        (n % 2 ^ (8 * len.toNat)).toNat >>> (8 * (len.toNat - 1 - i)) % 256) →
      xnet p offset len = .ok n)) ∧
  ((-11040 : Int) % 2 ^ 24).toNat = 0xFFD4E0 ∧
  packLsb (-11040) 3 = [0xE0#8, 0xD4#8, 0xFF#8] ∧ packMsb (-11040) 3 = [0xFF#8, 0xD4#8, 0xE0#8]

/-- R62, R64, R95, R96: the request line `POS.1 lat, lon` or `POS.2 lat, lon`, every operand at every
value it admits, with any bytes after it and on any channel, is answered by the quotients of exactly
these operands: no bit of the layout is dropped. -/
def Obligations.PackedPosRequestIsAnswered : Prop :=
  ∀ (s : State) (tag : Byte) (lat lon : Int) (extra : List Byte) (chan : Nat),
    (tag = 0x01#8 ∨ tag = 0x02#8) →
    -8388608 ≤ lat → lat ≤ 8388607 → -8388608 ≤ lon → lon ≤ 8388607 →
    s.pins = Edge.request (packP7 tag lat lon ++ extra) chan →
    Responds (step s) (rspPosition (rn64 lat 93206) (rn64 lon 46603))

/-- R62, R64, R97: the request line `POSX lat, lon, alt, hdop` is answered by its operands' quotients
and its altitude. -/
def Obligations.PackedPosxRequestIsAnswered : Prop :=
  ∀ (s : State) (lat lon alt hdop : Int) (extra : List Byte) (chan : Nat),
    -8388608 ≤ lat → lat ≤ 8388607 → -8388608 ≤ lon → lon ≤ 8388607 →
    -32768 ≤ alt → alt ≤ 32767 → -32768 ≤ hdop → hdop ≤ 32767 →
    s.pins = Edge.request (packP11 lat lon alt hdop ++ extra) chan →
    Responds (step s) (rspExtended (rn64 lat 93206) (rn64 lon 46603) alt (rn64 hdop 1000))

/-- R57: a longer payload decodes exactly as its first 7 (P7) or 11 (P11) bytes do. -/
def Obligations.TrailingBytesAreIgnored : Prop :=
  ∀ (p q : Payload) (chan : Nat),
    (tagIsP7 p → 7 ≤ p.plen → q.plen = 7 → (∀ i, i < 7 → q.byte i = p.byte i) →
      decodeFix p chan = decodeFix q chan) ∧
    (tagIsP11 p → 11 ≤ p.plen → q.plen = 11 → (∀ i, i < 11 → q.byte i = p.byte i) →
      decodeFix p chan = decodeFix q chan)

/-! ### Sign extension and extractors (spec/40_sign_extension.md, spec/41_extractors.md) -/

/-- R65, R66: `SEXT` on every container and width: the fill, the pass-through, the width fault. Where the
value of a unit called on its own goes is the model's choice (log 4). -/
def Obligations.SextFillsOrPasses : Prop :=
  ∀ (s : State) (v : Word) (len : BitVec 3),
    (1 ≤ len.toNat → len.toNat < 4 → v.getLsbD (8 * len.toNat - 1) = true →
      exec (.sext v len) s = .next
        { s with rsp := rspIdle, unit := .word (v ||| (0xFFFFFFFF#32 <<< (8 * len.toNat))) }) ∧
    (1 ≤ len.toNat → len.toNat < 4 → v.getLsbD (8 * len.toNat - 1) = false →
      exec (.sext v len) s = .next { s with rsp := rspIdle, unit := .word v }) ∧
    (len.toNat = 4 → exec (.sext v len) s = .next { s with rsp := rspIdle, unit := .word v }) ∧
    (len.toNat < 1 ∨ 4 < len.toNat →
      exec (.sext v len) s = .next { s with rsp := rspWidth, unit := .none })

/-- R69: below the field `SEXT` returns the input's bits; from bit `8*len` on, the input's bits where
the sign bit is 0 and all ones where it is 1; and the mask one bit lower gives the same. -/
def Obligations.SextUpperBits : Prop :=
  ∀ (v : Word) (len : BitVec 3), 1 ≤ len.toNat → len.toNat ≤ 3 →
    ∃ w : Word, sext v len = .ok w ∧
      (v.getLsbD (8 * len.toNat - 1) = false → w = v) ∧
      (∀ j, j < 8 * len.toNat → w.getLsbD j = v.getLsbD j) ∧
      (v.getLsbD (8 * len.toNat - 1) = true →
        (∀ j, 8 * len.toNat ≤ j → j < 32 → w.getLsbD j = true) ∧
        w = v ||| (0xFFFFFFFF#32 <<< (8 * len.toNat - 1)))

/-- R68: the value law for clean fields of 1, 2 and 3 bytes. -/
def Obligations.SextValueLaw : Prop :=
  ∀ (u : Word) (len : BitVec 3), 1 ≤ len.toNat → len.toNat ≤ 3 → u.toNat < 2 ^ (8 * len.toNat) →
    ∃ w : Word, sext u len = .ok w ∧
      (u.toNat < 2 ^ (8 * len.toNat - 1) → s32 w = u.toNat ∧ w.toInt = u.toNat) ∧
      (2 ^ (8 * len.toNat - 1) ≤ u.toNat →
        s32 w = u.toNat - 2 ^ (8 * len.toNat) ∧ w.toInt = u.toNat - 2 ^ (8 * len.toNat))

/-- R49, R75: `XLSB` returns the signed reading of the sum of its bytes, the first least significant; where
the value of a unit called on its own goes is the model's choice (log 4). -/
def Obligations.XlsbReturnsItsField : Prop :=
  ∀ (s : State) (offset : Nat) (len : BitVec 3), 1 ≤ len.toNat → len.toNat ≤ 4 →
    offset + len.toNat ≤ s.pins.payload.plen →
    exec (.xlsb offset len) s = .next { s with
      rsp := rspIdle
      unit := .int (signedOf (8 * len.toNat)
        (∑ i ∈ Finset.range len.toNat, (s.pins.payload.byte (offset + i)).toNat * 2 ^ (8 * i))) } ∧
    ∑ i ∈ Finset.range len.toNat, (s.pins.payload.byte (offset + i)).toNat * 2 ^ (8 * i) <
      2 ^ (8 * len.toNat)

/-- R50, R76: `XNET` returns the signed reading of the sum of its bytes, the first most significant; where
the value of a unit called on its own goes is the model's choice (log 4). -/
def Obligations.XnetReturnsItsField : Prop :=
  ∀ (s : State) (offset : Nat) (len : BitVec 3), 1 ≤ len.toNat → len.toNat ≤ 4 →
    offset + len.toNat ≤ s.pins.payload.plen →
    exec (.xnet offset len) s = .next { s with
      rsp := rspIdle
      unit := .int (signedOf (8 * len.toNat)
        (∑ i ∈ Finset.range len.toNat,
          (s.pins.payload.byte (offset + i)).toNat * 2 ^ (8 * (len.toNat - 1 - i)))) } ∧
    ∑ i ∈ Finset.range len.toNat,
        (s.pins.payload.byte (offset + i)).toNat * 2 ^ (8 * (len.toNat - 1 - i)) <
      2 ^ (8 * len.toNat)

/-- R71: a width outside 1 to 4 raises `Fault(WIDTH)` at any offset, never `RANGE`. -/
def Obligations.WidthGuardComesFirst : Prop :=
  ∀ (p : Payload) (offset : Nat) (len : BitVec 3), len.toNat < 1 ∨ 4 < len.toNat →
    xlsb p offset len = .error .width ∧ xnet p offset len = .error .width

/-- R72: a field that ends past `plen` raises `Fault(RANGE)`, exactly then; the sum does not wrap. -/
def Obligations.RangeGuardOnWholeField : Prop :=
  ∀ (p : Payload) (offset : Nat) (len : BitVec 3), 1 ≤ len.toNat → len.toNat ≤ 4 →
    (xlsb p offset len = .error .range ↔ p.plen < offset + len.toNat) ∧
    (xnet p offset len = .error .range ↔ p.plen < offset + len.toNat)

/-- R106: the fault of an extractor called on its own is delivered in RSP like any transaction's, with
no value (that such a call is a transaction of its own is the model's choice, log 4). -/
def Obligations.ExtractorFaultsAreDelivered : Prop :=
  ∀ (s : State) (offset : Nat) (len : BitVec 3),
    (len.toNat < 1 ∨ 4 < len.toNat →
      exec (.xlsb offset len) s = .next { s with rsp := rspWidth, unit := .none } ∧
      exec (.xnet offset len) s = .next { s with rsp := rspWidth, unit := .none }) ∧
    (1 ≤ len.toNat → len.toNat ≤ 4 → s.pins.payload.plen < offset + len.toNat →
      exec (.xlsb offset len) s = .next { s with rsp := rspRange, unit := .none } ∧
      exec (.xnet offset len) s = .next { s with rsp := rspRange, unit := .none })

/-- R77: `XLSB` over `b0 .. b(len-1)` equals `XNET` over `b(len-1) .. b0`; for `len = 1` the two are
equal on every input; the same bytes, offset and `len` give the same result. -/
def Obligations.ExtractorsAreMirrorImages : Prop :=
  (∀ (p q : Payload) (o o' : Nat) (len : BitVec 3), 1 ≤ len.toNat → len.toNat ≤ 4 →
    o + len.toNat ≤ p.plen → o' + len.toNat ≤ q.plen →
    (∀ i, i < len.toNat → p.byte (o + i) = q.byte (o' + (len.toNat - 1 - i))) →
    ∃ n : Int, xlsb p o len = .ok n ∧ xnet q o' len = .ok n) ∧
  (∀ (p : Payload) (o : Nat), xlsb p o 1 = xnet p o 1) ∧
  ∀ (p q : Payload) (o : Nat) (len : BitVec 3), p.plen = q.plen →
    (∀ i, i < len.toNat → o + i < p.plen → p.byte (o + i) = q.byte (o + i)) →
    xlsb p o len = xlsb q o len ∧ xnet p o len = xnet q o len

/-- R51: every extracted value lies in the two's-complement range of its width. -/
def Obligations.ExtractedValuesAreInRange : Prop :=
  ∀ (p : Payload) (offset : Nat) (len : BitVec 3) (n : Int),
    xlsb p offset len = .ok n ∨ xnet p offset len = .ok n →
    -(2 ^ (8 * len.toNat - 1)) ≤ n ∧ n < 2 ^ (8 * len.toNat - 1)

/-! ### The scaler (spec/42_scaler.md) -/

/-- R79, R80, R81, R82: the scaler's integer rounding is R82's definition on the exact rational: the three
operations answer `RN64(raw/K)`. For raw values no payload gives, which the spec does not speak of, this
is the model's inference (log 12); where the value of a unit called on its own goes is the model's choice
(log 4). -/
def Obligations.ScalerAnswersRn64 : Prop :=
  ∀ (s : State) (raw : Word),
    (∃ b, exec (.scaleLat raw) s = .next { s with rsp := rspIdle, unit := .float b } ∧
      IsRn64 ((raw.toInt : ℚ) / 93206) b) ∧
    (∃ b, exec (.scaleLon raw) s = .next { s with rsp := rspIdle, unit := .float b } ∧
      IsRn64 ((raw.toInt : ℚ) / 46603) b) ∧
    (∃ b, exec (.scaleHdop raw) s = .next { s with rsp := rspIdle, unit := .float b } ∧
      IsRn64 ((raw.toInt : ℚ) / 1000) b)

/-- R82: the pattern is a nearest one: no normal binary64 number is closer to the exact quotient. R86
speaks of the raw values of a payload; for other raw values this is the model's inference (log 12). -/
def Obligations.NoNormalNumberIsNearer : Prop :=
  ∀ (raw : Int) (k : Nat), -2147483648 ≤ raw → raw ≤ 2147483647 → raw ≠ 0 →
    (k = 93206 ∨ k = 46603 ∨ k = 1000) →
    IsNormal (rn64 raw k) ∧
    ∀ c : F64, IsNormal c →
      |normalValue (rn64 raw k) - (raw : ℚ) / k| ≤ |normalValue c - (raw : ℚ) / k|

/-- R85: no tie happens for the raw values of a payload, and a result is exact precisely when the odd
part of the divisor divides the raw value. -/
def Obligations.NoTiesAndExactResults : Prop :=
  ∀ (k odd : Nat) (raw : Int), ScalerCase k odd raw → raw ≠ 0 →
    (∀ e : ℤ, (2 : ℚ) ^ e ≤ |(raw : ℚ) / k| → |(raw : ℚ) / k| < (2 : ℚ) ^ (e + 1) →
      |(raw : ℚ) / k| * (2 : ℚ) ^ (52 - e) - ⌊|(raw : ℚ) / k| * (2 : ℚ) ^ (52 - e)⌋ ≠ 1 / 2) ∧
    (normalValue (rn64 raw k) = (raw : ℚ) / k ↔ (odd : ℤ) ∣ raw)

/-- R84: over every raw value of a payload a zero gives +0.0 and anything else a normal number whose
biased exponent lies between 1006 and 1030. -/
def Obligations.ScaledResultsAreNormal : Prop :=
  ∀ (k odd : Nat) (raw : Int), ScalerCase k odd raw →
    (raw = 0 → rn64 raw k = 0) ∧
    (raw ≠ 0 → 1006 ≤ expField (rn64 raw k) ∧ expField (rn64 raw k) ≤ 1030 ∧
      ((rn64 raw k).getLsbD 63 = true ↔ raw < 0) ∧
      ∃ e : ℤ, -17 ≤ e ∧ e ≤ 7 ∧ (2 : ℚ) ^ e ≤ |(raw : ℚ) / k| ∧
        |(raw : ℚ) / k| < (2 : ℚ) ^ (e + 1))

/-- R87: an exact multiple still gives a floating-point number, zero gives +0.0, no divisor is zero,
and altitude stays an integer. -/
def Obligations.QuotientsAreNeverIntegers : Prop :=
  scaleLat 93206 = 0x3FF0000000000000#64 ∧ scaleLat 0 = 0x0000000000000000#64 ∧
  scaleLon 0 = 0x0000000000000000#64 ∧ scaleHdop 0 = 0x0000000000000000#64 ∧
  (∀ (s : State) (c : ConstReg), readConst s c ≠ 0) ∧
  ∀ raw : Int, scalePass raw = raw

/-- R83: `SCALE.PASS` returns its operand, and `u32` of it is the container again; where the value of a
unit called on its own goes is the model's choice (log 4). -/
def Obligations.PassReturnsItsOperand : Prop :=
  ∀ (s : State) (raw : Word),
    exec (.scalePass raw) s = .next { s with rsp := rspIdle, unit := .int raw.toInt } ∧
    u32 raw.toInt = raw

/-! ### The parsers (spec/43_format_parsers.md) -/

/-- R89, R95, R96: with 7 bytes or more, `POS` and its two tag rows answer the P7 layout's position. That
RSP shows the outcome of `POS` called on its own is the model's choice (log 4), that the tag rows do not
look at byte 0 again its inference (log 11). -/
def Obligations.PosAnswersThePosition : Prop :=
  ∀ (s : State) (i : Instr), i ∈ [.pos, .pos1, .pos2] → 7 ≤ s.pins.payload.plen →
    Responds (exec i s) (answerP7 s.pins.payload)

/-- R90, R97: with 11 bytes or more, `POSX` answers the P11 layout's extended position. That it does not
look at byte 0 again is the model's inference (log 11). -/
def Obligations.PosxAnswersTheExtendedPosition : Prop :=
  ∀ s : State, 11 ≤ s.pins.payload.plen →
    Responds (exec .posx s) (answerP11 s.pins.payload)

/-- R91: `POS` raises `Fault(RANGE)` if and only if `plen < 7`, `POSX` if and only if `plen < 11`. That the
arms POS.1, POS.2 and POSX answer so whatever byte 0 is, without looking at it again, is the model's
inference (log 11). -/
def Obligations.ParsersNeedTheirLength : Prop :=
  (∀ p : Payload, (pos p = .error .range ↔ p.plen < 7) ∧ (posx p = .error .range ↔ p.plen < 11)) ∧
  ∀ s : State,
    (∀ i : Instr, i ∈ [.pos1, .pos2] →
      (Responds (exec i s) rspRange ↔ s.pins.payload.plen < 7)) ∧
    (Responds (exec .posx s) rspRange ↔ s.pins.payload.plen < 11)

/-- `POS` called by a bench on its own (the model's choice, log 4: the spec gives `POS` no place at the
ports): RSP shows `Enc` of its outcome, the fault where `plen < 7` (R91), and the step runs it whatever
`req_valid` is, then moves on to the host's next edge (log 1, log 2). -/
def Obligations.PosCalledAloneShowsItsOutcome : Prop :=
  ∀ s : State,
    let r := if s.pins.payload.plen < 7 then rspRange else answerP7 s.pins.payload
    exec .pos s = .next { s with rsp := r, unit := .none } ∧
    (s.pins.rst = false → s.pins.call = some .pos → step s = .next (edgeLeaves s r .none))

/-- R93, R60: a parser's outcome is made of its table's rows, each the extraction the `ord` select
names and then the scaling the `ksel` select names. Where the value of a unit called on its own goes, and
what RSP shows after `POS` called alone, is the model's choice (log 4); that POSX does not look at byte 0
again is its inference (log 11). -/
def Obligations.ParsersRunTheirFieldTables : Prop :=
  ∀ s : State,
    (7 ≤ s.pins.payload.plen → ∃ (lat lon : Int) (bLat bLon : F64),
      exec (decodeOrd 0 1 3) s = .next { s with rsp := rspIdle, unit := .int lat } ∧
      exec (decodeKsel 0 (u32 lat)) s = .next { s with rsp := rspIdle, unit := .float bLat } ∧
      exec (decodeOrd 0 4 3) s = .next { s with rsp := rspIdle, unit := .int lon } ∧
      exec (decodeKsel 1 (u32 lon)) s = .next { s with rsp := rspIdle, unit := .float bLon } ∧
      exec .pos s = .next { s with rsp := rspPosition bLat bLon, unit := .none }) ∧
    (11 ≤ s.pins.payload.plen → ∃ (lat lon alt hdop : Int) (bLat bLon bHdop : F64),
      exec (decodeOrd 1 1 3) s = .next { s with rsp := rspIdle, unit := .int lat } ∧
      exec (decodeKsel 0 (u32 lat)) s = .next { s with rsp := rspIdle, unit := .float bLat } ∧
      exec (decodeOrd 1 4 3) s = .next { s with rsp := rspIdle, unit := .int lon } ∧
      exec (decodeKsel 1 (u32 lon)) s = .next { s with rsp := rspIdle, unit := .float bLon } ∧
      exec (decodeOrd 1 7 2) s = .next { s with rsp := rspIdle, unit := .int alt } ∧
      exec (decodeKsel 3 (u32 alt)) s = .next { s with rsp := rspIdle, unit := .int alt } ∧
      exec (decodeOrd 1 9 2) s = .next { s with rsp := rspIdle, unit := .int hdop } ∧
      exec (decodeKsel 2 (u32 hdop)) s = .next { s with rsp := rspIdle, unit := .float bHdop } ∧
      exec .posx s = .next { s with rsp := rspExtended bLat bLon alt bHdop, unit := .none })

/-! ### The dispatcher (spec/44_dispatcher.md) -/

/-- R98: a request under any other tag gives `NoResult`, for every `plen >= 1` and whatever the other bytes
are. That the arm NORESULT on its own answers so in every state, with `plen = 0` and with any tag too, is
the model's inference (log 11). -/
def Obligations.OtherTagsGiveNoResult : Prop :=
  (∀ (s : State) (tag : Byte), Responds (exec (.noResult tag) s) rspNoResult) ∧
  ∀ s : State, Requests s → 1 ≤ s.pins.payload.plen →
    s.pins.payload.byte 0 ≠ 0x01#8 → s.pins.payload.byte 0 ≠ 0x02#8 →
    s.pins.payload.byte 0 ≠ 0x05#8 →
    Responds (step s) rspNoResult

/-- R103, R94: `DECODE` on every payload, by the rule's six rows, each with its whole answer. -/
def Obligations.DecodeOutcomeTable : Prop :=
  ∀ (s : State) (p : Payload), s.pins.payload = p →
    (p.plen = 0 → Responds (exec .decode s) rspRange) ∧
    (1 ≤ p.plen → p.plen ≤ 6 → tagIsP7 p →
      Responds (exec .decode s) rspRange) ∧
    (1 ≤ p.plen → p.plen ≤ 10 → tagIsP11 p →
      Responds (exec .decode s) rspRange) ∧
    (1 ≤ p.plen → ¬tagIsP7 p → ¬tagIsP11 p →
      Responds (exec .decode s) rspNoResult) ∧
    (7 ≤ p.plen → tagIsP7 p →
      Responds (exec .decode s) (answerP7 p)) ∧
    (11 ≤ p.plen → tagIsP11 p →
      Responds (exec .decode s) (answerP11 p))

/-- R94, R26: `DECODE` is the operation its tag selects, and a request's edge runs `DECODE`; that State's
schedule gives the edge after it is the model's choice (log 1, log 2). -/
def Obligations.DecodeRunsTheTagsOperation : Prop :=
  (∀ s : State, 1 ≤ s.pins.payload.plen →
    exec .decode s = exec (decodeTag (s.pins.payload.byte 0)) s) ∧
  ∀ s : State, Requests s → step s = afterEdge (exec .decode s)

/-- R96: two payloads of equal length that differ only in byte 0 being 1 in one and 2 in the other
get bit-identical outcomes. -/
def Obligations.TagsOneAndTwoAreAlike : Prop :=
  ∀ s t : State, Requests s → Requests t → s.pins.payload.plen = t.pins.payload.plen →
    1 ≤ s.pins.payload.plen →
    s.pins.payload.byte 0 = 0x01#8 → t.pins.payload.byte 0 = 0x02#8 →
    (∀ i, 1 ≤ i → i < s.pins.payload.plen → s.pins.payload.byte i = t.pins.payload.byte i) →
    ∃ r : Rsp, Responds (step s) r ∧ Responds (step t) r

/-- R99: the channel is ignored, by the function and at the port. -/
def Obligations.ChannelIsIgnored : Prop :=
  (∀ (p : Payload) (c1 c2 : Nat), decodeFix p c1 = decodeFix p c2) ∧
  ∀ (s : State) (chan : Nat), s.pins.call = none →
    step { s with pins := { s.pins with reqChan := chan } } = step s

/-- R100: `DECODE` is a function of byte 0 and `plen`, of bytes 1 to 6 under tags 1 and 2, of bytes 1 to
10 under tag 5, and of nothing else: two requests that agree there get the same response, whatever
else of the two states differs. -/
def Obligations.DecodeReadsOnlyItsFields : Prop :=
  ∀ s t : State, Requests s → Requests t → SameReads s.pins.payload t.pins.payload →
    ∃ r : Rsp, Responds (step s) r ∧ Responds (step t) r

/-! ### Faults (spec/60_exceptions.md) -/

/-- R106, R108: an operation that ends in a fault has no effect but RSP's fault pattern, every value field
0. That a unit's or `POS`'s call on its own shows its fault in RSP, and that the unit field then holds no
value, is the model's choice (log 4). -/
def Obligations.FaultShowsOnlyItsCode : Prop :=
  ∀ (i : Instr) (s t : State), exec i s = .next t → t.rsp.kind = 3 →
    t = { s with rsp := rspRange, unit := .none } ∨ t = { s with rsp := rspWidth, unit := .none }

/-- R67, R104: no request at the ports, whatever its bytes, gives `Fault(WIDTH)`. -/
def Obligations.NoWidthFaultAtThePorts : Prop :=
  ∀ s t : State, s.pins.call = none → step s = .next t → t.rsp.fault ≠ 2

/-- R126, R111: a request that meets the contract is answered by a decoded fix, and one that does not
by `Fault(RANGE)`; the function-level view answers it as a fault, never as a value. -/
def Obligations.ContractDecidesTheFault : Prop :=
  ∀ (p : Payload) (chan : Nat),
    (MeetsContract p → ∃ fix, transact p chan = .next fix ∧ decodeFix p chan = .ok fix) ∧
    (¬MeetsContract p → transact p chan = .fault .range ∧
      ∀ s : State, Requests s → s.pins.payload = p → Responds (step s) rspRange)
end

