-- ==== Sys2Proof/Laws/Memory.lean ====
section
/-! SUPPORT. Memory: read after write, the canonical form, the bytes of a payload. -/

namespace Sys2Proof.Machine

theorem Memory.wfFrom_cons {lo k : Nat} {b : Byte} {m : Memory} :
    Memory.wfFrom lo ((k, b) :: m) = true ↔ lo ≤ k ∧ b ≠ 0 ∧ Memory.wfFrom (k + 1) m = true := by
  simp [Memory.wfFrom, and_assoc]

theorem Memory.wfFrom_mono {lo lo' : Nat} {m : Memory} (h : lo' ≤ lo)
    (hm : Memory.wfFrom lo m = true) : Memory.wfFrom lo' m = true := by
  cases m with
  | nil => rfl
  | cons c rest =>
    obtain ⟨k, b⟩ := c
    rw [Memory.wfFrom_cons] at hm ⊢
    exact ⟨h.trans hm.1, hm.2⟩

/-- Below the lower bound nothing is listed. -/
theorem Memory.read_below {lo a : Nat} {m : Memory} (hm : Memory.wfFrom lo m = true) (h : a < lo) :
    Memory.read m a = 0 := by
  induction m generalizing lo with
  | nil => rfl
  | cons c rest ih =>
    obtain ⟨k, b⟩ := c
    obtain ⟨hk, -, hr⟩ := Memory.wfFrom_cons.mp hm
    rw [Memory.read, if_neg (by omega), ih hr (by omega)]

theorem Memory.write_wfFrom {lo a : Nat} {b : Byte} {m : Memory} (hm : Memory.wfFrom lo m = true)
    (ha : lo ≤ a) : Memory.wfFrom lo (Memory.write m a b) = true := by
  induction m generalizing lo with
  | nil => rw [Memory.write]; split <;> simp_all [Memory.wfFrom]
  | cons c rest ih =>
    obtain ⟨k, d⟩ := c
    obtain ⟨hk, hd, hr⟩ := Memory.wfFrom_cons.mp hm
    rw [Memory.write]
    split
    · split
      · exact hm
      · exact Memory.wfFrom_cons.mpr ⟨ha, ‹_›, Memory.wfFrom_cons.mpr ⟨by omega, hd, hr⟩⟩
    · split
      · split
        · exact Memory.wfFrom_mono (by omega) hr
        · exact Memory.wfFrom_cons.mpr ⟨ha, ‹_›, by subst a; exact hr⟩
      · exact Memory.wfFrom_cons.mpr ⟨hk, hd, ih hr (by omega)⟩

/-- A write keeps the canonical form. -/
theorem Memory.write_wf {a : Nat} {b : Byte} {m : Memory} (hm : Memory.wf m = true) :
    Memory.wf (Memory.write m a b) = true := Memory.write_wfFrom hm (Nat.zero_le a)

/-- A read after a write: the byte written there, every other address as before. -/
theorem Memory.read_write {lo : Nat} {m : Memory} (hm : Memory.wfFrom lo m = true) (a x : Nat)
    (b : Byte) : Memory.read (Memory.write m a b) x = if x = a then b else Memory.read m x := by
  induction m generalizing lo with
  | nil =>
    rw [Memory.write]
    split
    · split <;> simp_all [Memory.read]
    · simp only [Memory.read, eq_comm]
  | cons c rest ih =>
    obtain ⟨k, d⟩ := c
    obtain ⟨-, -, hr⟩ := Memory.wfFrom_cons.mp hm
    rw [Memory.write]
    split
    · split
      · split
        · subst_vars
          rw [Memory.read, if_neg (by omega), Memory.read_below hr (by omega)]
        · rfl
      · simp only [Memory.read, eq_comm (a := a)]
    · split
      · subst a
        split
        · subst b
          split
          · subst x; exact Memory.read_below hr (by omega)
          · rw [Memory.read, if_neg (by omega)]
        · simp only [Memory.read, eq_comm (a := k)]
          split <;> rfl
      · rw [Memory.read, Memory.read, ih hr]
        split
        · rw [if_neg (by omega)]
        · rfl

theorem Memory.ofBytes_wfFrom (bytes : List Byte) (start : Nat) :
    Memory.wfFrom start (Memory.ofBytes start bytes) = true := by
  induction bytes generalizing start with
  | nil => rfl
  | cons b rest ih =>
    rw [Memory.ofBytes]
    split
    · exact Memory.wfFrom_mono (Nat.le_succ start) (ih (start + 1))
    · exact Memory.wfFrom_cons.mpr ⟨le_refl _, ‹_›, ih (start + 1)⟩

/-- A memory made of bytes is in canonical form. -/
theorem Memory.ofBytes_wf (bytes : List Byte) : Memory.wf (Memory.ofBytes 0 bytes) = true :=
  Memory.ofBytes_wfFrom bytes 0

/-- A memory made of bytes reads back those bytes, and 0 past them. -/
theorem Memory.read_ofBytes (bytes : List Byte) (start i : Nat) :
    Memory.read (Memory.ofBytes start bytes) (start + i) = bytes.getD i 0 := by
  induction bytes generalizing start i with
  | nil => rfl
  | cons b rest ih =>
    rw [Memory.ofBytes]
    have shift (j : Nat) : start + (j + 1) = start + 1 + j := by omega
    split
    · subst b
      cases i with
      | zero => exact Memory.read_below (Memory.ofBytes_wfFrom rest (start + 1)) (by omega)
      | succ j => rw [shift j, ih (start + 1) j]; rfl
    · cases i with
      | zero => simp [Memory.read]
      | succ j => rw [Memory.read, if_neg (by omega), shift j, ih (start + 1) j]; rfl

/-- The memory of the reset state is in canonical form. -/
theorem State.reset_wf : Memory.wf State.reset.pins.payload.mem = true := rfl

/-- A request built from bytes, or from the ports, has a memory in canonical form. -/
theorem Edge.request_wf (bytes : List Byte) (chan : Nat) :
    Memory.wf (Edge.request bytes chan).payload.mem = true := Memory.ofBytes_wf bytes

theorem Edge.ofPorts_wf (rst valid : Bool) (reqLen : Nat) (d : BitVec 88) (chan : Nat) :
    Memory.wf (Edge.ofPorts rst valid reqLen d chan).payload.mem = true := Memory.ofBytes_wf _

@[simp] theorem Payload.ofBytes_plen (bytes : List Byte) :
    (Payload.ofBytes bytes).plen = bytes.length := rfl

@[simp] theorem Payload.ofBytes_byte (bytes : List Byte) (i : Nat) :
    (Payload.ofBytes bytes).byte i = bytes.getD i 0 := by
  simpa [Payload.ofBytes, Payload.byte] using Memory.read_ofBytes bytes 0 i

theorem Payload.memRead_of_lt {p : Payload} {a : Nat} (h : a < p.plen) :
    p.memRead a = .ok (p.byte a) := if_neg (by omega)

theorem Payload.memRead_of_ge {p : Payload} {a : Nat} (h : p.plen ≤ a) :
    p.memRead a = .error .range := if_pos h

end Sys2Proof.Machine
end

