-- ==== Sys2Proof/Laws/Fields.lean ====
section
/-! SUPPORT. What the extractors and the sign-extension unit can do: one lemma each. -/

namespace Sys2Proof.Machine

open Sys2Proof.Safety

/-- ORing a byte in above everything the container holds adds it in its lane (R73). -/
theorem or_byte_above {acc : Word} {b : Byte} {i : Nat} (hi : i ≤ 3) (hacc : acc.toNat < 2 ^ (8 * i)) :
    (acc ||| (b.setWidth 32 <<< (8 * i))).toNat = acc.toNat + b.toNat * 2 ^ (8 * i) := by
  have hb : b.toNat < 256 := b.isLt
  have hfit : b.toNat * 2 ^ (8 * i) < 2 ^ 32 := by
    calc b.toNat * 2 ^ (8 * i) < 2 ^ 8 * 2 ^ (8 * i) := by gcongr; exact hb
      _ = 2 ^ (8 + 8 * i) := (pow_add ..).symm
      _ ≤ 2 ^ 32 := by gcongr <;> omega
  rw [BitVec.toNat_or, BitVec.toNat_shiftLeft, BitVec.toNat_setWidth,
    Nat.mod_eq_of_lt (show b.toNat < 2 ^ 32 by omega), Nat.shiftLeft_eq, Nat.mod_eq_of_lt hfit,
    Nat.or_comm, mul_comm, ← Nat.two_pow_add_eq_or_of_lt hacc, add_comm]

/-- Shifting the container up by one lane and ORing a byte in below (R73). -/
theorem shift_or_byte {acc : Word} {b : Byte} (hacc : acc.toNat < 2 ^ 24) :
    ((acc <<< 8) ||| b.setWidth 32).toNat = acc.toNat * 256 + b.toNat := by
  have hb : b.toNat < 2 ^ 8 := b.isLt
  rw [BitVec.toNat_or, BitVec.toNat_shiftLeft, BitVec.toNat_setWidth,
    Nat.mod_eq_of_lt (show b.toNat < 2 ^ 32 by omega), Nat.shiftLeft_eq,
    Nat.mod_eq_of_lt (show acc.toNat * 2 ^ 8 < 2 ^ 32 by omega), mul_comm,
    ← Nat.two_pow_add_eq_or_of_lt hb]
  omega

theorem assembledLsb_succ (p : Payload) (offset n : Nat) :
    assembledLsb p offset (n + 1) =
      assembledLsb p offset n + (p.byte (offset + n)).toNat * 2 ^ (8 * n) :=
  Finset.sum_range_succ ..

theorem assembledNet_succ (p : Payload) (offset n : Nat) :
    assembledNet p offset (n + 1) =
      assembledNet p offset n * 256 + (p.byte (offset + n)).toNat := by
  rw [assembledNet, Finset.sum_range_succ, assembledNet, Finset.sum_mul]
  congr 1
  · refine Finset.sum_congr rfl fun i hi => ?_
    have hi := Finset.mem_range.mp hi
    rw [mul_assoc, show (256 : Nat) = 2 ^ 8 from rfl, ← pow_add]
    congr 2; omega
  · simp

theorem assembledLsb_lt (p : Payload) (offset len : Nat) :
    assembledLsb p offset len < 2 ^ (8 * len) := by
  induction len with
  | zero => simp [assembledLsb]
  | succ n ih =>
    have hb : (p.byte (offset + n)).toNat + 1 ≤ 256 := (p.byte (offset + n)).isLt
    rw [assembledLsb_succ, show 8 * (n + 1) = 8 + 8 * n by ring, pow_add]
    nlinarith

theorem assembledNet_lt (p : Payload) (offset len : Nat) :
    assembledNet p offset len < 2 ^ (8 * len) := by
  induction len with
  | zero => simp [assembledNet]
  | succ n ih =>
    have hb : (p.byte (offset + n)).toNat < 256 := (p.byte (offset + n)).isLt
    rw [assembledNet_succ, show 8 * (n + 1) = 8 + 8 * n by ring, pow_add]
    omega

/-- The loop of `XLSB`, from the bytes already in: the whole pattern, or the range fault. -/
theorem assembleLsb_eq (p : Payload) (offset : Nat) (count i : Nat) (acc : Word) (h : i + count ≤ 4)
    (hacc : acc.toNat = assembledLsb p offset i) :
    (offset + (i + count) ≤ p.plen →
      ∃ v, assembleLsb p offset count i acc = .ok v ∧ v.toNat = assembledLsb p offset (i + count)) ∧
    (offset + i ≤ p.plen → p.plen < offset + (i + count) →
      assembleLsb p offset count i acc = .error .range) := by
  induction count generalizing i acc with
  | zero => exact ⟨fun _ => ⟨acc, rfl, hacc⟩, fun _ _ => by omega⟩
  | succ n ih =>
    by_cases hr : offset + i < p.plen
    · have hacc' : (acc ||| ((p.byte (offset + i)).setWidth 32 <<< (8 * i))).toNat =
          assembledLsb p offset (i + 1) := by
        rw [or_byte_above (by omega) (hacc ▸ assembledLsb_lt p offset i), hacc, assembledLsb_succ]
      have := ih (i + 1) _ (by omega) hacc'
      rw [assembleLsb, Payload.memRead_of_lt hr]
      rw [show i + 1 + n = i + (n + 1) by omega] at this
      exact ⟨this.1, fun _ h2 => this.2 (by omega) h2⟩
    · rw [assembleLsb, Payload.memRead_of_ge (by omega)]
      exact ⟨fun h1 => by omega, fun _ _ => rfl⟩

/-- The loop of `XNET`, from the bytes already in. -/
theorem assembleNet_eq (p : Payload) (offset : Nat) (count i : Nat) (acc : Word) (h : i + count ≤ 4)
    (hacc : acc.toNat = assembledNet p offset i) :
    (offset + (i + count) ≤ p.plen →
      ∃ v, assembleNet p count (offset + i) acc = .ok v ∧
        v.toNat = assembledNet p offset (i + count)) ∧
    (offset + i ≤ p.plen → p.plen < offset + (i + count) →
      assembleNet p count (offset + i) acc = .error .range) := by
  induction count generalizing i acc with
  | zero => exact ⟨fun _ => ⟨acc, rfl, hacc⟩, fun _ _ => by omega⟩
  | succ n ih =>
    by_cases hr : offset + i < p.plen
    · have hlt : assembledNet p offset i < 2 ^ 24 :=
        (assembledNet_lt p offset i).trans_le (Nat.pow_le_pow_right (by omega) (by omega))
      have hacc' : ((acc <<< 8) ||| (p.byte (offset + i)).setWidth 32).toNat =
          assembledNet p offset (i + 1) := by
        rw [shift_or_byte (hacc ▸ hlt), hacc, assembledNet_succ]
      have := ih (i + 1) _ (by omega) hacc'
      rw [assembleNet, Payload.memRead_of_lt hr]
      rw [show i + 1 + n = i + (n + 1) by omega] at this
      exact ⟨this.1, fun _ h2 => this.2 (by omega) h2⟩
    · rw [assembleNet, Payload.memRead_of_ge (by omega)]
      exact ⟨fun h1 => by omega, fun _ _ => rfl⟩

theorem lenOk_iff {len : BitVec 3} : lenOk len = true ↔ 1 ≤ len.toNat ∧ len.toNat ≤ 4 := by
  simp [lenOk]

/-- `SEXT` on a legal width, bit by bit: the field's own bits, and its sign bit above them if that is
set (R65, R69). -/
theorem sext_bits {v : Word} {len : BitVec 3} (h : lenOk len = true) :
    ∃ w, sext v len = .ok w ∧ ∀ j < 32, w.getLsbD j =
      (v.getLsbD j || (decide (8 * len.toNat ≤ j) && signBit v len)) := by
  obtain ⟨h1, h4⟩ := lenOk_iff.mp h
  rw [sext, if_neg (by simp [h])]
  split
  · rename_i hs
    refine ⟨_, rfl, fun j hj => ?_⟩
    have hone : (0xFFFFFFFF#32) = BitVec.allOnes 32 := by decide
    rw [hone]
    by_cases hlt : j < 8 * len.toNat
    · simp [hs.2, hlt, hj]
    · have hle : 8 * len.toNat ≤ j := by omega
      simp only [BitVec.getLsbD_or, BitVec.getLsbD_shiftLeft, BitVec.getLsbD_allOnes, hs.2, hlt, hj,
        hle, decide_true, decide_false, Bool.not_false, Bool.true_and, Bool.and_true]
      simp [show j - 8 * len.toNat < 32 by omega]
  · rename_i hs
    refine ⟨_, rfl, fun j hj => ?_⟩
    by_cases hlt : 8 * len.toNat ≤ j
    · have : signBit v len = false := by
        by_contra hne
        exact hs ⟨by omega, by simpa using hne⟩
      simp [this]
    · simp [hlt]

/-- Filling the bits above a clean field adds the rest of the container (R68). -/
theorem fill_above {v : Word} (k a : Nat) (hv : v.toNat < 2 ^ k) (m : Word)
    (hm : m.toNat = 2 ^ k * a) : (v ||| m).toNat = 2 ^ k * a + v.toNat := by
  rw [BitVec.toNat_or, hm, Nat.or_comm, ← Nat.two_pow_add_eq_or_of_lt hv]

/-- The sign bit of a clean field says whether its pattern is in the upper half (R51). -/
theorem signBit_clean {v : Word} {len : BitVec 3} (h1 : 1 ≤ len.toNat)
    (hv : v.toNat < 2 ^ (8 * len.toNat)) :
    signBit v len = decide (2 ^ (8 * len.toNat - 1) ≤ v.toNat) := by
  rw [signBit, BitVec.getLsbD, Nat.testBit_eq_decide_div_mod_eq]
  have h2 : v.toNat / 2 ^ (8 * len.toNat - 1) < 2 := by
    rw [Nat.div_lt_iff_lt_mul (by positivity), mul_comm, ← pow_succ]
    convert hv using 2; omega
  by_cases hle : 2 ^ (8 * len.toNat - 1) ≤ v.toNat
  · have := (Nat.one_le_div_iff (by positivity)).mpr hle
    simp only [hle, decide_true, decide_eq_true_eq]; omega
  · simp [hle, Nat.div_eq_of_lt (not_le.mp hle)]

/-- `SEXT` on a clean field, read as `s32`: the two's-complement value of the field (R66, R68). -/
theorem sext_value {v : Word} {len : BitVec 3} (h : lenOk len = true)
    (hv : v.toNat < 2 ^ (8 * len.toNat)) :
    (sext v len).map s32 = .ok (signedOf (8 * len.toNat) v.toNat) := by
  obtain ⟨h1, h4⟩ := lenOk_iff.mp h
  have hsign := signBit_clean h1 hv
  have hcases : len.toNat = 1 ∨ len.toNat = 2 ∨ len.toNat = 3 ∨ len.toNat = 4 := by omega
  rw [sext, if_neg (by simp [h]), hsign]
  rcases hcases with e | e | e | e <;> rw [e] at hv ⊢ <;> norm_num at hv ⊢
  · split
    · have := fill_above 8 0xFFFFFF hv (0xFFFFFFFF#32 <<< 8) (by decide)
      simp only [Except.map, s32, signedOf] at this ⊢
      rw [this]; simp; omega
    · simp only [Except.map, s32, signedOf]; simp; omega
  · split
    · have := fill_above 16 0xFFFF hv (0xFFFFFFFF#32 <<< 16) (by decide)
      simp only [Except.map, s32, signedOf] at this ⊢
      rw [this]; simp; omega
    · simp only [Except.map, s32, signedOf]; simp; omega
  · split
    · have := fill_above 24 0xFF hv (0xFFFFFFFF#32 <<< 24) (by decide)
      simp only [Except.map, s32, signedOf] at this ⊢
      rw [this]; simp; omega
    · simp only [Except.map, s32, signedOf]; simp; omega
  · simp only [Except.map, s32, signedOf]

/-- Everything `XLSB` can do: the width fault, the range fault, or the field's signed value
(R71, R72, R75). -/
theorem xlsb_eq (p : Payload) (offset : Nat) (len : BitVec 3) :
    xlsb p offset len =
      if lenOk len = false then .error .width
      else if p.plen < offset + len.toNat then .error .range
      else .ok (fieldLsb p offset len.toNat) := by
  rw [xlsb]
  split
  · rfl
  · rename_i h
    have h : lenOk len = true := by simpa using h
    have key := assembleLsb_eq p offset len.toNat 0 0 (by have := lenOk_iff.mp h; omega)
      (by simp [assembledLsb])
    rw [Nat.zero_add] at key
    split
    · rename_i hr
      by_cases ho : offset ≤ p.plen
      · rw [key.2 ho hr]; rfl
      · have hn : len.toNat ≠ 0 := by have := lenOk_iff.mp h; omega
        obtain ⟨n, hn⟩ := Nat.exists_eq_succ_of_ne_zero hn
        rw [hn, assembleLsb, Payload.memRead_of_ge (by omega)]; rfl
    · rename_i hr
      obtain ⟨v, hv, hval⟩ := key.1 (by omega)
      rw [hv, signedField, sext_value h (hval ▸ assembledLsb_lt p offset len.toNat), hval, fieldLsb]

/-- Everything `XNET` can do (R71, R72, R76). -/
theorem xnet_eq (p : Payload) (offset : Nat) (len : BitVec 3) :
    xnet p offset len =
      if lenOk len = false then .error .width
      else if p.plen < offset + len.toNat then .error .range
      else .ok (fieldNet p offset len.toNat) := by
  rw [xnet]
  split
  · rfl
  · rename_i h
    have h : lenOk len = true := by simpa using h
    have key := assembleNet_eq p offset len.toNat 0 0 (by have := lenOk_iff.mp h; omega)
      (by simp [assembledNet])
    rw [Nat.zero_add, Nat.add_zero] at key
    split
    · rename_i hr
      by_cases ho : offset ≤ p.plen
      · rw [key.2 ho hr]; rfl
      · have hn : len.toNat ≠ 0 := by have := lenOk_iff.mp h; omega
        obtain ⟨n, hn⟩ := Nat.exists_eq_succ_of_ne_zero hn
        rw [hn, assembleNet, Payload.memRead_of_ge (by omega)]; rfl
    · rename_i hr
      obtain ⟨v, hv, hval⟩ := key.1 (by omega)
      rw [hv, signedField, sext_value h (hval ▸ assembledNet_lt p offset len.toNat), hval, fieldNet]

/-- Everything `POS` can do (R89, R91, R92). -/
theorem pos_eq (p : Payload) :
    pos p = if p.plen < 7 then .error .range
      else .ok (.position (scaleLat (fieldLsb p 1 3)) (scaleLon (fieldLsb p 4 3))) := by
  have h3 : lenOk 3 = true := by decide
  have hn : BitVec.toNat (3 : BitVec 3) = 3 := by decide
  simp only [pos, xlsb_eq, h3, hn, Bool.true_eq_false, if_false]
  by_cases a : p.plen < 4
  · simp [a, show p.plen < 7 by omega, bind, Except.bind]
  · by_cases b : p.plen < 7 <;> simp [a, b, bind, Except.bind, pure, Except.pure]

/-- Everything `POSX` can do (R90, R91, R92). -/
theorem posx_eq (p : Payload) :
    posx p = if p.plen < 11 then .error .range
      else .ok (.positionExtended (scaleLat (fieldNet p 1 3)) (scaleLon (fieldNet p 4 3))
        (scalePass (fieldNet p 7 2)) (scaleHdop (fieldNet p 9 2))) := by
  have h3 : lenOk 3 = true := by decide
  have hn : BitVec.toNat (3 : BitVec 3) = 3 := by decide
  have h2 : lenOk 2 = true := by decide
  have hm : BitVec.toNat (2 : BitVec 3) = 2 := by decide
  simp only [posx, xnet_eq, h3, hn, h2, hm, Bool.true_eq_false, if_false]
  by_cases a : p.plen < 4
  · simp [a, show p.plen < 11 by omega, bind, Except.bind]
  · by_cases b : p.plen < 7
    · simp [a, b, show p.plen < 11 by omega, bind, Except.bind]
    · by_cases c : p.plen < 9
      · simp [a, b, c, show p.plen < 11 by omega, bind, Except.bind]
      · by_cases d : p.plen < 11 <;> simp [a, b, c, d, bind, Except.bind, pure, Except.pure]

end Sys2Proof.Machine
end

