-- ==== Sys2Proof/Laws/State.lean ====
section
/-! SUPPORT. One lemma per field of State per operation that updates it. -/

namespace Sys2Proof.Machine

variable (s : State) (f : Fault) (fix : DecodedFix) (v : UnitOut) (bytes : List Byte)

@[simp] theorem idleEdge_rsp : (idleEdge s).rsp = Rsp.idle := rfl
@[simp] theorem idleEdge_unit : (idleEdge s).unit = .none := rfl
@[simp] theorem idleEdge_pins : (idleEdge s).pins = s.pins := rfl
@[simp] theorem idleEdge_upcoming : (idleEdge s).upcoming = s.upcoming := rfl

@[simp] theorem deliver_rsp : (deliver fix s).rsp = Rsp.enc (.ok fix) := rfl
@[simp] theorem deliver_unit : (deliver fix s).unit = .none := rfl
@[simp] theorem deliver_pins : (deliver fix s).pins = s.pins := rfl
@[simp] theorem deliver_upcoming : (deliver fix s).upcoming = s.upcoming := rfl

@[simp] theorem takeFault_rsp : (takeFault f s).rsp = Rsp.enc (.error f) := rfl
@[simp] theorem takeFault_unit : (takeFault f s).unit = .none := rfl
@[simp] theorem takeFault_pins : (takeFault f s).pins = s.pins := rfl
@[simp] theorem takeFault_upcoming : (takeFault f s).upcoming = s.upcoming := rfl

@[simp] theorem returnUnit_rsp : (returnUnit v s).rsp = Rsp.idle := rfl
@[simp] theorem returnUnit_unit : (returnUnit v s).unit = v := rfl
@[simp] theorem returnUnit_pins : (returnUnit v s).pins = s.pins := rfl
@[simp] theorem returnUnit_upcoming : (returnUnit v s).upcoming = s.upcoming := rfl

@[simp] theorem presentBytes_rsp : (presentBytes bytes s).rsp = s.rsp := rfl
@[simp] theorem presentBytes_unit : (presentBytes bytes s).unit = s.unit := rfl
@[simp] theorem presentBytes_pins : (presentBytes bytes s).pins = Edge.request bytes 0 := rfl
@[simp] theorem presentBytes_upcoming : (presentBytes bytes s).upcoming = s.upcoming := rfl

/-- Everything the move to the next edge does. -/
theorem toNextEdge_eq :
    toNextEdge s = { s with pins := s.upcoming.headD Edge.idle, upcoming := s.upcoming.tail } := by
  obtain ⟨r, u, p, up⟩ := s
  cases up <;> rfl

@[simp] theorem toNextEdge_rsp : (toNextEdge s).rsp = s.rsp := by rw [toNextEdge_eq]
@[simp] theorem toNextEdge_unit : (toNextEdge s).unit = s.unit := by rw [toNextEdge_eq]
@[simp] theorem toNextEdge_pins : (toNextEdge s).pins = s.upcoming.headD Edge.idle := by
  rw [toNextEdge_eq]
@[simp] theorem toNextEdge_upcoming : (toNextEdge s).upcoming = s.upcoming.tail := by
  rw [toNextEdge_eq]

end Sys2Proof.Machine
end

