-- ==== Sys2Proof/Laws/Ops.lean ====
section
/-! SUPPORT. What the shared operations can do: the end of a transaction, the end of a unit's call,
every operation, a step. -/

namespace Sys2Proof.Machine

theorem complete_next (o : Except Fault DecodedFix) (s : State) :
    complete o s = .next { s with rsp := Rsp.enc o, unit := .none } := by
  cases o <;> rfl

theorem completeUnit_next (o : Except Fault UnitOut) (s : State) :
    ∃ r u, completeUnit o s = .next { s with rsp := r, unit := u } ∧
      (r = Rsp.idle ∨ ∃ f, r = Rsp.enc (.error f)) := by
  cases o with
  | ok v => exact ⟨Rsp.idle, v, rfl, .inl rfl⟩
  | error f => exact ⟨_, .none, rfl, .inr ⟨f, rfl⟩⟩

/-- Everything an operation can do: it answers a next state, overwrites RSP with the idle pattern or
an outcome, overwrites the unit's wires, and leaves the inputs alone. -/
theorem exec_next (i : Instr) (s : State) :
    ∃ r u, exec i s = .next { s with rsp := r, unit := u } ∧
      (r = Rsp.idle ∨ ∃ o, r = Rsp.enc o) := by
  have whole (o : Except Fault DecodedFix) : ∃ r u, complete o s = .next { s with rsp := r, unit := u } ∧
      (r = Rsp.idle ∨ ∃ o, r = Rsp.enc o) := ⟨_, _, complete_next o s, .inr ⟨o, rfl⟩⟩
  have unit (o : Except Fault UnitOut) : ∃ r u, completeUnit o s = .next { s with rsp := r, unit := u } ∧
      (r = Rsp.idle ∨ ∃ o, r = Rsp.enc o) := by
    obtain ⟨r, u, h, hr⟩ := completeUnit_next o s
    exact ⟨r, u, h, hr.imp id fun ⟨f, hf⟩ => ⟨.error f, hf⟩⟩
  cases i with
  | pos1 => exact whole _
  | pos2 => exact whole _
  | posx => exact whole _
  | noResult tag => exact whole (.ok .noResult)
  | decode => exact whole _
  | pos => exact whole _
  | xlsb offset len => exact unit _
  | xnet offset len => exact unit _
  | sext v len => exact unit _
  | scaleLat raw => exact unit (.ok (.float (Sys2Proof.Machine.scaleLat (s32 raw))))
  | scaleLon raw => exact unit (.ok (.float (Sys2Proof.Machine.scaleLon (s32 raw))))
  | scaleHdop raw => exact unit (.ok (.float (Sys2Proof.Machine.scaleHdop (s32 raw))))
  | scalePass raw => exact unit (.ok (.int (Sys2Proof.Machine.scalePass (s32 raw))))

/-- An edge's action on a state: what RSP and the unit's wires take. -/
theorem step_of_idle {s : State} (h : selectAction s.pins = .idle) :
    step s = .next (toNextEdge (idleEdge s)) := by rw [step, h]

theorem step_of_fault {s : State} {f : Fault} (h : selectAction s.pins = .fault f) :
    step s = .next (toNextEdge (takeFault f s)) := by rw [step, h]

theorem step_of_run {s : State} {i : Instr} (h : selectAction s.pins = .run i) :
    step s = afterEdge (exec i s) := by rw [step, h]

end Sys2Proof.Machine
end

