-- ==== Sys2Proof/Laws/PerInstr.lean ====
section
/-! SUPPORT. For every operation: no other well-formed operation has its encoding. -/

namespace Sys2Proof.Laws

/-- The family: an operation's encoding is its own. -/
def EncodingIsOwn.Statement (i : Instr) : Prop :=
  ∀ j e, i.wf = true → j.wf = true → encode i = some e → encode j = some e → j = i

namespace EncodingIsOwn

theorem pos1 : Statement .pos1 := by
  intro j e _ hj hi he; cases j <;> simp_all [encode, Instr.wf] <;> subst hi <;> simp_all
theorem pos2 : Statement .pos2 := by
  intro j e _ hj hi he; cases j <;> simp_all [encode, Instr.wf] <;> subst hi <;> simp_all
theorem posx : Statement .posx := by
  intro j e _ hj hi he; cases j <;> simp_all [encode, Instr.wf] <;> subst hi <;> simp_all
theorem noResult (tag : Byte) : Statement (.noResult tag) := by
  intro j e hw hj hi he; cases j <;> simp_all [encode, Instr.wf] <;> subst hi <;> simp_all
theorem decode : Statement .decode := by
  intro j e _ _ hi _; simp [encode] at hi
theorem pos : Statement .pos := by
  intro j e _ _ hi _; simp [encode] at hi
theorem xlsb (offset : Nat) (len : BitVec 3) : Statement (.xlsb offset len) := by
  intro j e _ hj hi he; cases j <;> simp_all [encode, Instr.wf] <;> subst hi <;> simp_all
theorem xnet (offset : Nat) (len : BitVec 3) : Statement (.xnet offset len) := by
  intro j e _ hj hi he; cases j <;> simp_all [encode, Instr.wf] <;> subst hi <;> simp_all
theorem sext (v : Word) (len : BitVec 3) : Statement (.sext v len) := by
  intro j e _ hj hi he; cases j <;> simp_all [encode, Instr.wf] <;> subst hi <;> simp_all
theorem scaleLat (raw : Word) : Statement (.scaleLat raw) := by
  intro j e _ hj hi he; cases j <;> simp_all [encode, Instr.wf] <;> subst hi <;> simp_all
theorem scaleLon (raw : Word) : Statement (.scaleLon raw) := by
  intro j e _ hj hi he; cases j <;> simp_all [encode, Instr.wf] <;> subst hi <;> simp_all
theorem scaleHdop (raw : Word) : Statement (.scaleHdop raw) := by
  intro j e _ hj hi he; cases j <;> simp_all [encode, Instr.wf] <;> subst hi <;> simp_all
theorem scalePass (raw : Word) : Statement (.scalePass raw) := by
  intro j e _ hj hi he; cases j <;> simp_all [encode, Instr.wf] <;> subst hi <;> simp_all

end EncodingIsOwn

end Sys2Proof.Laws
end

