-- ==== Sys2Proof/Laws/Rounding.lean ====
section
/-! SUPPORT. What the parts of the rounding function compute (spec/42_scaler.md R82). -/

namespace Sys2Proof.Machine

/-- `floorLog2` is the exponent R82 asks for, in integers: above 1. -/
theorem floorLog2_of_le {n d : Nat} (hd : 0 < d) (h : d ≤ n) :
    ∃ k : Nat, floorLog2 n d = k ∧ d * 2 ^ k ≤ n ∧ n < d * 2 ^ (k + 1) := by
  have hq : n / d ≠ 0 := by rw [Ne, Nat.div_eq_zero_iff]; omega
  refine ⟨Nat.log2 (n / d), by rw [floorLog2, if_pos h], ?_, ?_⟩
  · calc d * 2 ^ Nat.log2 (n / d) ≤ d * (n / d) := by gcongr; exact Nat.log2_self_le hq
      _ ≤ n := Nat.mul_div_le n d
  · have := (Nat.log2_lt hq).mp (Nat.lt_succ_self _)
    rw [mul_comm]; exact (Nat.div_lt_iff_lt_mul hd).mp this

/-- `floorLog2` is the exponent R82 asks for, in integers: below 1. -/
theorem floorLog2_of_lt {n d : Nat} (hn : 0 < n) (h : n < d) :
    ∃ k : Nat, floorLog2 n d = -((k : Int) + 1) ∧ d ≤ n * 2 ^ (k + 1) ∧ n * 2 ^ k < d := by
  have hc : (d + n - 1) / n - 1 ≠ 0 := by
    have : 2 ≤ (d + n - 1) / n := (Nat.le_div_iff_mul_le hn).mpr (by omega)
    omega
  have hup (m : Nat) : (d + n - 1) / n ≤ m ↔ d ≤ n * m := by
    rw [← Nat.lt_succ_iff, Nat.div_lt_iff_lt_mul hn, Nat.succ_mul, mul_comm m]; omega
  refine ⟨Nat.log2 ((d + n - 1) / n - 1), by rw [floorLog2, if_neg (by omega)], ?_, ?_⟩
  · have := (Nat.log2_lt hc).mp (Nat.lt_succ_self _)
    exact (hup _).mp (by omega)
  · have h1 := Nat.log2_self_le hc
    by_contra hle
    have := (hup _).mpr (not_lt.mp hle)
    omega

/-- The bracket of R82 for a positive quotient. -/
theorem floorLog2_bracket {n d : Nat} (hn : 0 < n) (hd : 0 < d) :
    (2 : ℚ) ^ floorLog2 n d ≤ (n : ℚ) / d ∧ (n : ℚ) / d < (2 : ℚ) ^ (floorLog2 n d + 1) := by
  have hd' : (0 : ℚ) < d := by exact_mod_cast hd
  rcases Nat.lt_or_ge n d with h | h
  · obtain ⟨k, hk, hlo, hhi⟩ := floorLog2_of_lt hn h
    have hlo' : (d : ℚ) ≤ n * 2 ^ (k + 1) := by exact_mod_cast hlo
    have hhi' : (n : ℚ) * 2 ^ k < d := by exact_mod_cast hhi
    rw [hk, show -((k : ℤ) + 1) = -((k + 1 : ℕ) : ℤ) by push_cast; ring,
      show -((k + 1 : ℕ) : ℤ) + 1 = -(k : ℤ) by push_cast; ring, zpow_neg, zpow_neg, zpow_natCast,
      zpow_natCast, le_div_iff₀ hd', div_lt_iff₀ hd', inv_mul_le_iff₀ (by positivity),
      lt_inv_mul_iff₀ (by positivity)]
    exact ⟨by linarith, by linarith⟩
  · obtain ⟨k, hk, hlo, hhi⟩ := floorLog2_of_le hd h
    have hlo' : (d : ℚ) * 2 ^ k ≤ n := by exact_mod_cast hlo
    have hhi' : (n : ℚ) < d * 2 ^ (k + 1) := by exact_mod_cast hhi
    rw [hk, zpow_natCast, show (k : ℤ) + 1 = ((k + 1 : ℕ) : ℤ) by push_cast; ring, zpow_natCast,
      le_div_iff₀ hd', div_lt_iff₀ hd']
    exact ⟨by linarith, by linarith⟩

/-- Rounding half to even, on the exact quotient (R82): up exactly when the fraction is above a half,
or a half over an odd integer. -/
theorem roundHalfEven_eq {n d : Nat} (hd : 0 < d) :
    (roundHalfEven n d : ℤ) =
      let r : ℤ := ⌊(n : ℚ) / d⌋
      let f : ℚ := (n : ℚ) / d - r
      if 1 / 2 < f ∨ (f = 1 / 2 ∧ r % 2 = 1) then r + 1 else r := by
  have hd' : (0 : ℚ) < d := by exact_mod_cast hd
  have hfloor : ⌊(n : ℚ) / d⌋ = ((n / d : ℕ) : ℤ) := by
    rw [← Nat.floor_div_eq_div (K := ℚ) n d, Int.natCast_floor_eq_floor (by positivity)]
  have hmod : (n : ℚ) = d * (n / d : ℕ) + (n % d : ℕ) := by exact_mod_cast (Nat.div_add_mod n d).symm
  have hfrac : (n : ℚ) / d - ((n / d : ℕ) : ℤ) = (n % d : ℕ) / d := by
    rw [eq_div_iff hd'.ne', sub_mul, div_mul_cancel₀ _ hd'.ne']
    rw [Int.cast_natCast]; linarith
  simp only [hfloor, hfrac, roundHalfEven]
  have h1 : (1 / 2 : ℚ) < (n % d : ℕ) / d ↔ d < 2 * (n % d) := by
    rw [lt_div_iff₀ hd', ← Nat.cast_lt (α := ℚ)]; push_cast
    constructor <;> intro h <;> linarith
  have h2 : ((n % d : ℕ) : ℚ) / d = 1 / 2 ↔ 2 * (n % d) = d := by
    rw [div_eq_div_iff hd'.ne' (by norm_num), ← Nat.cast_inj (R := ℚ)]; push_cast
    constructor <;> intro h <;> linarith
  have h3 : ((n / d : ℕ) : ℤ) % 2 = 1 ↔ n / d % 2 = 1 := by omega
  simp only [h1, h2, h3]
  split <;> simp

/-- The pattern of a number in fields is R82's last line, in range. -/
theorem packF64_eq (neg : Bool) (e : ℤ) (r : ℕ) (he : -1023 ≤ e) (he' : e ≤ 1024) (hr : 2 ^ 52 ≤ r)
    (hr' : r < 2 ^ 53) : packF64 neg e r = Safety.patternOf (neg = true) e r := by
  obtain ⟨E, hE⟩ : ∃ E : ℕ, e + 1023 = E := ⟨(e + 1023).toNat, by omega⟩
  obtain ⟨f, rfl⟩ : ∃ f, r = 2 ^ 52 + f := ⟨r - 2 ^ 52, by omega⟩
  rw [packF64, Safety.patternOf, hE]
  apply BitVec.eq_of_toNat_eq
  have hE2 : (BitVec.ofNat 11 E).toNat = E := by simp; omega
  have hf2 : (BitVec.ofNat 52 f).toNat = f := by simp; omega
  have hcat (b : Bool) : (BitVec.ofBool b ++ BitVec.ofNat 11 E ++ BitVec.ofNat 52 f).toNat =
      (2 ^ 11 * b.toNat + E) * 2 ^ 52 + f := by
    rw [BitVec.toNat_append, BitVec.toNat_append, hE2, hf2, BitVec.toNat_ofBool,
      ← Nat.shiftLeft_add_eq_or_of_lt (by omega), ← Nat.shiftLeft_add_eq_or_of_lt (by omega),
      Nat.shiftLeft_eq, Nat.shiftLeft_eq]
    ring
  rw [show ((E : ℤ).toNat) = E by simp, show 2 ^ 52 + f - 2 ^ 52 = f by omega, hcat,
    BitVec.toNat_ofInt]
  cases neg <;> simp <;> omega

/-- The exponent of every quotient of a container by a divisor of the scaler. -/
theorem floorLog2_range (a k : ℕ) (ha : 0 < a) (ha' : a ≤ 2 ^ 31)
    (hk : k = 93206 ∨ k = 46603 ∨ k = 1000) : -17 ≤ floorLog2 a k ∧ floorLog2 a k ≤ 31 := by
  have hk0 : 0 < k := by omega
  rcases Nat.lt_or_ge a k with h | h
  · obtain ⟨j, hj, h1, h2⟩ := floorLog2_of_lt ha h
    have : j < 17 := by
      by_contra hc
      have : 2 ^ 17 ≤ 2 ^ j := Nat.pow_le_pow_right (by omega) (by omega)
      have : 1 * 2 ^ 17 ≤ a * 2 ^ j := Nat.mul_le_mul ha this
      omega
    omega
  · obtain ⟨j, hj, h1, h2⟩ := floorLog2_of_le hk0 h
    have : j < 32 := by
      by_contra hc
      have : 2 ^ 32 ≤ 2 ^ j := Nat.pow_le_pow_right (by omega) (by omega)
      have : 1 * 2 ^ 32 ≤ k * 2 ^ j := Nat.mul_le_mul hk0 this
      omega
    omega

/-- `s32` is the two's-complement reading (R9). -/
theorem s32_eq_toInt (w : Word) : s32 w = w.toInt := by
  rw [s32, BitVec.toInt]; split <;> split <;> omega

end Sys2Proof.Machine
end

