-- ==== Sys2Proof/Laws/Step.lean ====
section
/-! SUPPORT. What the dispatcher and a step can do. -/

namespace Sys2Proof.Machine

open Sys2Proof.Safety

/-- Everything `DECODE` can do, in the order of its checks (R94, R110). -/
theorem decodeFix_eq (p : Payload) (chan : Nat) :
    decodeFix p chan =
      if p.plen = 0 then .error .range
      else if tagIsP7 p then pos p
      else if tagIsP11 p then posx p
      else .ok .noResult := by
  by_cases h : p.plen = 0
  · simp [decodeFix, h, Payload.memRead, bind, Except.bind]
  · have hread : p.memRead 0 = .ok (p.byte 0) := Payload.memRead_of_lt (by omega)
    simp only [decodeFix, hread, bind, Except.bind, if_neg h, tagIsP7, tagIsP11]
    by_cases h1 : p.byte 0 = 0x01#8
    · simp [h1]
    · by_cases h2 : p.byte 0 = 0x02#8
      · simp [h2]
      · simp [h1, h2, pure, Except.pure]

theorem toNextEdge_eq_edgeLeaves (s : State) : toNextEdge s = edgeLeaves s s.rsp s.unit := by
  rw [toNextEdge_eq]; rfl

/-- Everything a step can do: it answers a next state, RSP takes the idle pattern or an outcome, and
the host's next edge is on the pins. -/
theorem step_next (s : State) :
    ∃ r u, step s = .next (edgeLeaves s r u) ∧ (r = Rsp.idle ∨ ∃ o, r = Rsp.enc o) := by
  cases h : selectAction s.pins with
  | idle =>
    refine ⟨Rsp.idle, .none, ?_, .inl rfl⟩
    rw [step_of_idle h, toNextEdge_eq_edgeLeaves]; rfl
  | fault f =>
    refine ⟨Rsp.enc (.error f), .none, ?_, .inr ⟨.error f, rfl⟩⟩
    rw [step_of_fault h, toNextEdge_eq_edgeLeaves]; rfl
  | run i =>
    obtain ⟨r, u, he, hr⟩ := exec_next i s
    refine ⟨r, u, ?_, hr⟩
    rw [step_of_run h, he, afterEdge, toNextEdge_eq_edgeLeaves]; rfl

end Sys2Proof.Machine
end

