-- ==== Sys2Proof/Tests/Slice0.lean ====
section
/-! SUPPORT. The model's own tests: expected values are those of spec/95_test_vectors.md and of the
examples in the rules. Then, for every statement that has hypotheses, witnesses that meet them. -/

namespace Sys2Proof.Tests

open Sys2Proof.Machine Sys2Proof.Safety

/-- A request with these bytes on the pins after reset. -/
def asked (bytes : List Nat) : State :=
  { State.reset with pins := Edge.request (bytes.map (BitVec.ofNat 8)) 0 }

/-- A bench's call of `i` on these bytes. -/
def called (i : Instr) (bytes : List Nat) : State :=
  { State.reset with pins := { Edge.request (bytes.map (BitVec.ofNat 8)) 0 with call := some i } }

/-- The state after one edge from `s`, if it answers one. -/
def after (s : State) : Option State :=
  match step s with
  | .next t => some t
  | .fault _ => none
  | .refused _ => none

/-- RSP after an operation. -/
def rspOf (i : Instr) (s : State) : Option Rsp :=
  match exec i s with
  | .next t => some t.rsp
  | .fault _ => none
  | .refused _ => none

/-- The value a unit returned. -/
def unitOf (i : Instr) (s : State) : Option UnitOut :=
  match exec i s with
  | .next t => some t.unit
  | .fault _ => none
  | .refused _ => none

def s1 : State := asked [0x01, 0x10, 0x27, 0x00, 0xE0, 0xD4, 0xFF]
def s2 : State := asked [0x02, 0x10, 0x27, 0x00, 0xE0, 0xD4, 0xFF]
def s3 : State := asked [0x05, 0x00, 0x27, 0x10, 0x00, 0xD4, 0xE0, 0x00, 0x64, 0x03, 0xE8]
def s5 : State := asked [0x05, 0x00, 0x27, 0x10, 0x00, 0xD4, 0xE0, 0xFF, 0x38, 0x03, 0xE8]
def short7 : State := asked [0x01, 0x10, 0x27, 0x00, 0xE0, 0xD4]
def short11 : State := asked [0x05, 0x00, 0x27, 0x10, 0x00, 0xD4, 0xE0, 0x00, 0x64, 0x03]
def other : State := asked [0x09, 0x00, 0x00, 0x00]
def empty : State := asked []
def eVec : State := asked [0x80, 0x01, 0x02, 0xFF, 0x7F]

/-! ### Well-formedness: each check refuses an ill-formed term -/

theorem test_wf_refuses_tag_1 : (Instr.noResult 0x01#8).wf = false := by decide
theorem test_wf_refuses_tag_2 : (Instr.noResult 0x02#8).wf = false := by decide
theorem test_wf_refuses_tag_5 : (Instr.noResult 0x05#8).wf = false := by decide
theorem test_wf_accepts_tag_81 : (Instr.noResult 0x81#8).wf = true := by decide

/-! ### Decoding, from the words of R53 and R60 -/

theorem test_decode_pos1 : decodeTableWord 8 0b00000001 = some .pos1 := by decide
theorem test_decode_pos2 : decodeTableWord 8 0b00000010 = some .pos2 := by decide
theorem test_decode_posx : decodeTableWord 8 0b00000101 = some .posx := by decide
theorem test_decode_noResult : decodeTableWord 8 0b10000001 = some (.noResult 0x81#8) := by decide
theorem test_decode_xlsb : decode (.ordSelect 0b0#1 4 0b011#3) = .ok (.xlsb 4 3#3) := by decide
theorem test_decode_xnet : decode (.ordSelect 0b1#1 9 0b010#3) = .ok (.xnet 9 2#3) := by decide
theorem test_decode_sext : decode (.lenSelect 0b010#3 0xFF38#32) = .ok (.sext 0xFF38#32 2#3) := by
  decide
theorem test_decode_scaleLat : decode (.kselSelect 0b00#2 1#32) = .ok (.scaleLat 1#32) := by decide
theorem test_decode_scaleLon : decode (.kselSelect 0b01#2 1#32) = .ok (.scaleLon 1#32) := by decide
theorem test_decode_scaleHdop : decode (.kselSelect 0b10#2 1#32) = .ok (.scaleHdop 1#32) := by
  decide
theorem test_decode_scalePass : decode (.kselSelect 0b11#2 1#32) = .ok (.scalePass 1#32) := by
  decide
theorem test_decode_rejects_empty : decode (.payload []) = .error .emptyPayload := by decide

/-! ### Results (95_test_vectors.md) -/

/-- S1. -/
theorem test_pos1_s1 :
    (after s1).map (·.rsp) = some (rspPosition 0x3FBB774E9761C06C#64 0xBFCE52901BDC8ECD#64) := by
  decide
/-- P9. -/
theorem test_pos1_short : (after short7).map (·.rsp) = some rspRange := by decide
/-- S2. -/
theorem test_pos2_s2 :
    (after s2).map (·.rsp) = some (rspPosition 0x3FBB774E9761C06C#64 0xBFCE52901BDC8ECD#64) := by
  decide
/-- P3. -/
theorem test_pos2_p3 :
    (after (asked [0x02, 0xFF, 0xFF, 0xFF, 0x01, 0x00, 0x00])).map (·.rsp) =
      some (rspPosition 0xBEE6800BF40659A3#64 0x3EF6800BF40659A3#64) := by decide
/-- S5: the ports, `rsp_alt = 0xFFFFFF38`. -/
theorem test_posx_s5 :
    (after s5).map (·.rsp) = some
      { valid := true, kind := 2, fault := 0, lat := 0x3FBB774E9761C06C#64,
        lon := 0x3FF2B5B9F08AC7CA#64, alt := 0xFFFFFF38#32, hdop := 0x3FF0000000000000#64 } := by
  decide
/-- Q3: extreme values. -/
theorem test_posx_q3 :
    (after (asked [0x05, 0x80, 0x00, 0x00, 0x7F, 0xFF, 0xFF, 0x80, 0x00, 0x7F, 0xFF])).map (·.rsp) =
      some (rspExtended 0xC056800BF40659A3#64 0x4066800BC70641BB#64 (-32768)
        0x4040622D0E560419#64) := by decide
/-- S4: shorter than any known layout, and still no fault. -/
theorem test_noResult_s4 : (after other).map (·.rsp) = some rspNoResult := by decide
/-- N10: the tag is compared as a whole byte. -/
theorem test_noResult_n10 :
    (after (asked [0x81, 0x10, 0x27, 0x00, 0xE0, 0xD4, 0xFF])).map (·.rsp) = some rspNoResult := by
  decide
/-- N7. -/
theorem test_decode_empty : rspOf .decode empty = some rspRange := by decide
/-- P7: the S3 bytes under tag 1 are read LSB first. -/
theorem test_decode_p7 :
    rspOf .decode (asked [0x01, 0x00, 0x27, 0x10, 0x00, 0xD4, 0xE0, 0x00, 0x64, 0x03, 0xE8]) =
      some (rspPosition 0x4026B6E41129291E#64 0xC045EAFBA4D5AF92#64) := by decide
/-- P2. -/
theorem test_pos_p2 :
    rspOf .pos (asked [0x01, 0xFF, 0xFF, 0x7F, 0x00, 0x00, 0x80]) =
      some (rspPosition 0x4056800BC70641BB#64 0xC066800BF40659A3#64) := by decide
/-- E4, E14. -/
theorem test_xlsb_e4 : unitOf (.xlsb 0 4) eVec = some (.int (-16645760)) := by decide
theorem test_xlsb_e14 : rspOf (.xlsb 0 5) eVec = some rspWidth := by decide
/-- E9, E12. -/
theorem test_xnet_e9 : unitOf (.xnet 2 3) eVec = some (.int 196479) := by decide
theorem test_xnet_e12 : rspOf (.xnet 5 1) eVec = some rspRange := by decide
/-- X13, X23. -/
theorem test_sext_x13 : unitOf (.sext 0x00FFD4E0#32 3) eVec = some (.word 0xFFFFD4E0#32) := by decide
theorem test_sext_x23 : unitOf (.sext 0x00010080#32 1) eVec = some (.word 0xFFFFFF80#32) := by decide
/-- K9, K12. -/
theorem test_scaleLat_k9 : scaleLat 4194304 = 0x4046800BF40659A3#64 := by decide
theorem test_scaleLat_k12 : scaleLat (-8388608) = 0xC056800BF40659A3#64 := by decide
/-- K21, K16 through the operation. -/
theorem test_scaleLon_k21 : scaleLon (-3448000) = 0xC0527F25538BD462#64 := by decide
theorem test_scaleLon_k16 :
    unitOf (.scaleLon 0xFFFFD4E0#32) eVec = some (.float 0xBFCE52901BDC8ECD#64) := by decide
/-- K27 (rounds up), K30 (rounds down). -/
theorem test_scaleHdop_k27 : scaleHdop 100 = 0x3FB999999999999A#64 := by decide
theorem test_scaleHdop_k30 : scaleHdop 950 = 0x3FEE666666666666#64 := by decide
/-- K38. -/
theorem test_scalePass_k38 : u32 (scalePass (-200)) = 0xFFFFFF38#32 := by decide
/-- Program A, edges 1 and 3: the port's 88 bits. -/
theorem test_reqData_program_a : s3.pins.reqData = 0xE8036400E0D40010270005#88 := by decide
theorem test_ofPorts_program_a :
    (Edge.ofPorts false true 7 0x00000000FFD4E000271001#88 0).payload = s1.pins.payload := by decide

/-! ### Witnesses: concrete inputs that meet the hypotheses of the statements -/

/-- An edge with `rst = 1` and a request at once (Program D, edge 1). -/
def resetting : State := { s3 with pins := { s3.pins with rst := true } }

/-- S1's request, then a reset edge with S3's request (Program D). -/
def programD : State := { s1 with upcoming := [resetting.pins, Edge.idle] }

theorem witness_ResetEdgeIsCompleteReset : resetting.pins.rst = true := by decide
theorem witness_ResetWinsOverRequest : resetting.pins.rst = true ∧ Requests programD ∧
    (after programD).map (fun t => (t.pins.rst, t.rsp)) =
      some (true, rspPosition 0x3FBB774E9761C06C#64 0xBFCE52901BDC8ECD#64) :=
  ⟨by decide, ⟨rfl, rfl, rfl⟩, by decide⟩
theorem witness_EdgeWithoutRequestIsIdle : State.reset.pins.rst = false ∧
    State.reset.pins.call = none ∧ State.reset.pins.reqValid = false := by decide
theorem witness_StepIsTheEdgeRule : s1.pins.call = none ∧ 10 < min 11 11 ∧ ¬11 < min 12 11 := by
  decide
theorem witness_EveryEdgeLeavesAnOutcome :
    after (called (.sext 0 0) []) = some { State.reset with rsp := rspWidth } ∧
    after State.reset = some State.reset := by decide
theorem witness_StepRunsDecodedOperation :
    (Requests s1 ∧ s1.pins.payload.memRead 0 = .ok 0x01#8) ∧
    ((called .pos []).pins.rst = false ∧ (called .pos []).pins.call = some .pos) ∧
    decodeTableWord 8 5 = some .posx :=
  ⟨⟨⟨rfl, rfl, rfl⟩, by decide⟩, by decide, by decide⟩
theorem witness_EmptyRequestIsRangeFault : Requests empty ∧ empty.pins.payload.plen = 0 :=
  ⟨⟨rfl, rfl, rfl⟩, rfl⟩
theorem witness_RunAnswersEveryEdge : ∀ e ∈ programD.pins :: programD.upcoming, e.call = none := by
  decide
theorem witness_FaultLeavesNothingBehind :
    (after { programD with pins := short7.pins }).isSome ∧
    (after { programD with pins := Edge.idle }).isSome := by decide

/-- S1's payload fits every `LEN_W`. -/
theorem witness_StepKeepsInvariant : Inv s1 ∧ (after s1).isSome := by
  refine ⟨⟨.inl rfl, ⟨by decide, ?_, ?_⟩, by simp [s1, asked, State.reset]⟩, by decide⟩
  · have : 2 ^ 4 ≤ 2 ^ Config.lenW := Nat.pow_le_pow_right (by omega) (by unfold Config.lenW; omega)
    show 7 ≤ 2 ^ Config.lenW - 1
    omega
  · exact Nat.two_pow_pos _

theorem witness_ReadOutOfRangeFaults : eVec.pins.payload.plen ≤ 5 ∧ 4 < eVec.pins.payload.plen := by
  decide
theorem witness_OperationsLeaveInputsAlone :
    (rspOf .decode s1).isSome ∧ (rspOf (.noResult 9) s1).isSome ∧
    Instr.decode ∈ [Instr.pos1, .pos2, .posx, .decode, .pos] ∧
    (unitOf (.xlsb 1 3) s1 = some (.int 10000)) ∧ unitOf (.xlsb 1 0) s1 = some .none ∧
    ¬(Instr.xlsb 1 3 ∈ [Instr.pos1, .pos2, .posx, .decode, .pos] ∨
      ∃ tag, Instr.xlsb 1 3 = .noResult tag) := by
  refine ⟨by decide, by decide, by decide, by decide, by decide, by simp⟩
theorem witness_ByteOrdersOfOneField :
    0x02 = (eVec.pins.payload.byte 2).toNat ∧ 0xFF = (eVec.pins.payload.byte 3).toNat ∧
    0x7F = (eVec.pins.payload.byte 4).toNat ∧ 2 + 3 ≤ eVec.pins.payload.plen ∧
    2 + 2 ≤ eVec.pins.payload.plen := by decide
theorem witness_RequestWindowIgnoresTheRest :
    (∀ j, j < 8 * 7 → (0x00000000FFD4E000271001#88).getLsbD j =
      (0xAABBCCDDFFD4E000271001#88).getLsbD j) ∧
    (s3.pins.call = none ∧ s3.pins.payload.plen = 11 ∧
      ∀ i, i < min 11 11 → s3.pins.payload.byte i = s3.pins.payload.byte i) ∧
    State.reset.pins.call = none ∧ State.reset.pins.reqValid = false := by decide
theorem witness_DecodeUndoesEncode :
    (Instr.noResult 0xFF).wf = true ∧ encode (.noResult 0xFF) = some (.payload [0xFF#8]) ∧
    encode .pos = none ∧ encode .decode = none := by decide
/-- The most negative 3-byte value, in LSB order at offset 4 and in network order at offset 1. -/
theorem witness_PackedFieldsAreRecovered :
    1 ≤ (3 : BitVec 3).toNat ∧ (3 : BitVec 3).toNat ≤ 4 ∧ -(2 ^ (8 * 3 - 1)) ≤ (-8388608 : Int) ∧
    (-8388608 : Int) < 2 ^ (8 * 3 - 1) ∧
    4 + 3 ≤ (asked [0x01, 0x80, 0x00, 0x00, 0x00, 0x00, 0x80]).pins.payload.plen ∧
    (∀ i, i < 3 →
      ((asked [0x01, 0x80, 0x00, 0x00, 0x00, 0x00, 0x80]).pins.payload.byte (4 + i)).toNat =
        ((-8388608 : Int) % 2 ^ 24).toNat >>> (8 * i) % 256) ∧
    (∀ i, i < 3 →
      ((asked [0x01, 0x80, 0x00, 0x00, 0x00, 0x00, 0x80]).pins.payload.byte (1 + i)).toNat =
        ((-8388608 : Int) % 2 ^ 24).toNat >>> (8 * (3 - 1 - i)) % 256) := by decide
theorem witness_PackedPosRequestIsAnswered :
    s1.pins = Edge.request (packP7 0x01#8 10000 (-11040) ++ []) 0 ∧
    s2.pins = Edge.request (packP7 0x02#8 10000 (-11040) ++ []) 0 := by decide
theorem witness_PackedPosxRequestIsAnswered :
    s5.pins = Edge.request (packP11 10000 54496 (-200) 1000 ++ []) 0 := by decide
theorem witness_TrailingBytesAreIgnored :
    (tagIsP7 (asked [0x01, 1, 2, 3, 4, 5, 6, 7]).pins.payload ∧
      (asked [0x01, 1, 2, 3, 4, 5, 6]).pins.payload.plen = 7 ∧
      ∀ i, i < 7 → (asked [0x01, 1, 2, 3, 4, 5, 6]).pins.payload.byte i =
        (asked [0x01, 1, 2, 3, 4, 5, 6, 7]).pins.payload.byte i) ∧
    (tagIsP11 s3.pins.payload ∧ 11 ≤ s3.pins.payload.plen ∧ s3.pins.payload.plen = 11) := by decide
theorem witness_SextFillsOrPasses :
    (1 ≤ (1 : BitVec 3).toNat ∧ (1 : BitVec 3).toNat < 4 ∧
      (0x80#32).getLsbD (8 * (1 : BitVec 3).toNat - 1) = true) ∧
    ((3 : BitVec 3).toNat < 4 ∧ (0x7FFFFF#32).getLsbD (8 * (3 : BitVec 3).toNat - 1) = false) ∧
    (4 : BitVec 3).toNat = 4 ∧ (0 : BitVec 3).toNat < 1 ∧ 4 < (5 : BitVec 3).toNat := by decide
theorem witness_SextUpperBits :
    1 ≤ (3 : BitVec 3).toNat ∧ (3 : BitVec 3).toNat ≤ 3 ∧ 23 < 8 * (3 : BitVec 3).toNat ∧
    8 * (3 : BitVec 3).toNat ≤ 24 ∧ (0x00800000#32).getLsbD (8 * (3 : BitVec 3).toNat - 1) = true := by
  decide
theorem witness_SextValueLaw :
    (0x7FFF#32).toNat < 2 ^ (8 * (2 : BitVec 3).toNat - 1) ∧
    2 ^ (8 * (2 : BitVec 3).toNat - 1) ≤ (0x8000#32).toNat ∧
    (0x8000#32).toNat < 2 ^ (8 * (2 : BitVec 3).toNat) := by decide
/-- E5: the last byte is the last of the payload. -/
theorem witness_XlsbReturnsItsField :
    (4 : BitVec 3).toNat ≤ 4 ∧ 1 + (4 : BitVec 3).toNat ≤ eVec.pins.payload.plen := by decide
theorem witness_XnetReturnsItsField :
    1 ≤ (1 : BitVec 3).toNat ∧ 4 + (1 : BitVec 3).toNat ≤ eVec.pins.payload.plen := by decide
theorem witness_WidthGuardComesFirst : (0 : BitVec 3).toNat < 1 ∧ 4 < (7 : BitVec 3).toNat := by
  decide
/-- E11 and E8: one past the end, and the last byte. -/
theorem witness_RangeGuardOnWholeField :
    eVec.pins.payload.plen < 4 + (2 : BitVec 3).toNat ∧
    ¬eVec.pins.payload.plen < 4 + (1 : BitVec 3).toNat := by decide
theorem witness_ExtractorFaultsAreDelivered :
    (0 : BitVec 3).toNat < 1 ∧ 4 < (5 : BitVec 3).toNat ∧
    eVec.pins.payload.plen < 5 + (1 : BitVec 3).toNat := by decide
theorem witness_ExtractorsAreMirrorImages :
    0 + (2 : BitVec 3).toNat ≤ (asked [0x80, 0x01]).pins.payload.plen ∧
    (∀ i, i < 2 → (asked [0x80, 0x01]).pins.payload.byte (0 + i) =
      (asked [0x01, 0x80]).pins.payload.byte (0 + (2 - 1 - i))) ∧
    (asked [0x80, 0x01]).pins.payload.plen = (asked [0x80, 0x01]).pins.payload.plen := by decide
theorem witness_ExtractedValuesAreInRange :
    xlsb eVec.pins.payload 0 1 = .ok (-128) ∧ xnet eVec.pins.payload 3 2 = .ok (-129) := by decide
theorem witness_NoNormalNumberIsNearer :
    IsNormal 0x3FF0000000000000#64 ∧ (-2147483648 : Int) ≤ 2147483647 ∧ (2147483647 : Int) ≠ 0 := by
  unfold IsNormal expField; decide
theorem witness_NoTiesAndExactResults :
    (ScalerCase 93206 46603 1 ∧ (1 : Int) ≠ 0 ∧
      (2 : ℚ) ^ (-17 : ℤ) ≤ |((1 : Int) : ℚ) / (93206 : Nat)| ∧
      |((1 : Int) : ℚ) / (93206 : Nat)| < (2 : ℚ) ^ ((-17 : ℤ) + 1)) ∧
    (ScalerCase 46603 46603 (-8388608) ∧ (-8388608 : Int) ≠ 0 ∧
      (2 : ℚ) ^ (7 : ℤ) ≤ |((-8388608 : Int) : ℚ) / (46603 : Nat)| ∧
      |((-8388608 : Int) : ℚ) / (46603 : Nat)| < (2 : ℚ) ^ ((7 : ℤ) + 1)) ∧
    (ScalerCase 1000 125 1 ∧ (1 : Int) ≠ 0 ∧
      (2 : ℚ) ^ (-10 : ℤ) ≤ |((1 : Int) : ℚ) / (1000 : Nat)| ∧
      |((1 : Int) : ℚ) / (1000 : Nat)| < (2 : ℚ) ^ ((-10 : ℤ) + 1)) := by
  refine ⟨⟨.inl (by decide), by decide, ?_, ?_⟩, ⟨.inl (by decide), by decide, ?_, ?_⟩,
    ⟨.inr (by decide), by decide, ?_, ?_⟩⟩ <;> norm_num [abs_div, abs_of_pos]
theorem witness_ScaledResultsAreNormal :
    ScalerCase 93206 46603 8388607 ∧ ScalerCase 46603 46603 (-8388608) ∧ ScalerCase 1000 125 0 :=
  ⟨.inl (by decide), .inl (by decide), .inr (by decide)⟩
theorem witness_PosAnswersThePosition :
    7 ≤ s1.pins.payload.plen ∧ rspOf .pos1 s1 = some (answerP7 s1.pins.payload) := by decide
theorem witness_PosxAnswersTheExtendedPosition :
    11 ≤ s5.pins.payload.plen ∧ rspOf .posx s5 = some (answerP11 s5.pins.payload) := by decide
theorem witness_ParsersNeedTheirLength :
    short7.pins.payload.plen < 7 ∧ ¬s1.pins.payload.plen < 7 ∧ short11.pins.payload.plen < 11 ∧
    ¬s3.pins.payload.plen < 11 := by decide
theorem witness_ParsersRunTheirFieldTables :
    7 ≤ s1.pins.payload.plen ∧ 11 ≤ s3.pins.payload.plen := by decide
theorem witness_OtherTagsGiveNoResult :
    Requests other ∧ 1 ≤ other.pins.payload.plen ∧ other.pins.payload.byte 0 ≠ 0x01#8 ∧
    other.pins.payload.byte 0 ≠ 0x02#8 ∧ other.pins.payload.byte 0 ≠ 0x05#8 :=
  ⟨⟨rfl, rfl, rfl⟩, by decide⟩
theorem witness_DecodeOutcomeTable :
    empty.pins.payload.plen = 0 ∧
    (short7.pins.payload.plen ≤ 6 ∧ tagIsP7 short7.pins.payload) ∧
    (short11.pins.payload.plen ≤ 10 ∧ tagIsP11 short11.pins.payload) ∧
    (1 ≤ other.pins.payload.plen ∧ ¬tagIsP7 other.pins.payload ∧ ¬tagIsP11 other.pins.payload) ∧
    (7 ≤ s2.pins.payload.plen ∧ tagIsP7 s2.pins.payload) ∧
    (11 ≤ s3.pins.payload.plen ∧ tagIsP11 s3.pins.payload) := by decide
theorem witness_DecodeRunsTheTagsOperation : 1 ≤ s1.pins.payload.plen ∧ Requests s1 :=
  ⟨by decide, rfl, rfl, rfl⟩
theorem witness_TagsOneAndTwoAreAlike :
    Requests s1 ∧ Requests s2 ∧ s1.pins.payload.plen = s2.pins.payload.plen ∧
    1 ≤ s1.pins.payload.plen ∧ s1.pins.payload.byte 0 = 0x01#8 ∧ s2.pins.payload.byte 0 = 0x02#8 ∧
    ∀ i, i < 7 → 1 ≤ i → s1.pins.payload.byte i = s2.pins.payload.byte i :=
  ⟨⟨rfl, rfl, rfl⟩, ⟨rfl, rfl, rfl⟩, by decide⟩
theorem witness_ChannelIsIgnored : s1.pins.call = none := by decide
/-- P4 and P5: the same fields with and without trailing bytes differ in `plen`, so the two are compared
at one `plen`, with different bytes past the fields; tag 1 here, tag 5 below. -/
theorem witness_DecodeReadsOnlyItsFields :
    Requests (asked [1, 2, 3, 4, 5, 6, 7, 0xAA]) ∧ Requests (asked [1, 2, 3, 4, 5, 6, 7, 0xBB]) ∧
    SameReads (asked [1, 2, 3, 4, 5, 6, 7, 0xAA]).pins.payload
      (asked [1, 2, 3, 4, 5, 6, 7, 0xBB]).pins.payload := by
  refine ⟨⟨rfl, rfl, rfl⟩, ⟨rfl, rfl, rfl⟩, by decide, by decide, ?_, ?_⟩
  · intro _ i _ h6 _
    have : ∀ j, j < 7 → (asked [1, 2, 3, 4, 5, 6, 7, 0xAA]).pins.payload.byte j =
      (asked [1, 2, 3, 4, 5, 6, 7, 0xBB]).pins.payload.byte j := by decide
    exact this i (by omega)
  · intro h; exact absurd h (by decide)
theorem witness_DecodeReadsOnlyItsFields_tag5 :
    Requests (asked [5, 0, 0x27, 0x10, 0, 0xD4, 0xE0, 0xFF, 0x38, 3, 0xE8, 0xAA]) ∧
    Requests (asked [5, 0, 0x27, 0x10, 0, 0xD4, 0xE0, 0xFF, 0x38, 3, 0xE8, 0xBB]) ∧
    tagIsP11 (asked [5, 0, 0x27, 0x10, 0, 0xD4, 0xE0, 0xFF, 0x38, 3, 0xE8, 0xAA]).pins.payload ∧
    SameReads (asked [5, 0, 0x27, 0x10, 0, 0xD4, 0xE0, 0xFF, 0x38, 3, 0xE8, 0xAA]).pins.payload
      (asked [5, 0, 0x27, 0x10, 0, 0xD4, 0xE0, 0xFF, 0x38, 3, 0xE8, 0xBB]).pins.payload := by
  refine ⟨⟨rfl, rfl, rfl⟩, ⟨rfl, rfl, rfl⟩, by decide, by decide, by decide, ?_, ?_⟩
  · intro h; exact absurd h (by decide)
  · intro _ i _ h10 _
    have : ∀ j, j < 11 →
      (asked [5, 0, 0x27, 0x10, 0, 0xD4, 0xE0, 0xFF, 0x38, 3, 0xE8, 0xAA]).pins.payload.byte j =
      (asked [5, 0, 0x27, 0x10, 0, 0xD4, 0xE0, 0xFF, 0x38, 3, 0xE8, 0xBB]).pins.payload.byte j := by
      decide
    exact this i (by omega)
/-- A bench's call of `POS` with `req_valid = 0`, one byte short and complete. -/
theorem witness_PosCalledAloneShowsItsOutcome :
    let short := { short7 with pins := { short7.pins with reqValid := false, call := some .pos } }
    let full := { s1 with pins := { s1.pins with reqValid := false, call := some .pos } }
    (short.pins.rst = false ∧ short.pins.call = some .pos ∧ short.pins.payload.plen < 7) ∧
    (full.pins.rst = false ∧ full.pins.call = some .pos ∧ ¬full.pins.payload.plen < 7) := by decide
theorem witness_FaultShowsOnlyItsCode :
    (rspOf .pos short7).map (·.kind) = some 3 ∧ (rspOf (.sext 0 7) short7).map (·.kind) = some 3 := by
  decide
theorem witness_NoWidthFaultAtThePorts : s3.pins.call = none ∧ (after s3).isSome := by decide
theorem witness_ContractDecidesTheFault :
    MeetsContract s3.pins.payload ∧ ¬MeetsContract short7.pins.payload ∧ Requests short7 :=
  ⟨by unfold MeetsContract; decide, by unfold MeetsContract; decide, rfl, rfl, rfl⟩

end Sys2Proof.Tests
end

/-! PROOFS. The facts behind the statements about the state and the edge (spec/10_state.md): RSP's
patterns, the ports, the reads of `DECODE`, the edge with no bench's call, the host's schedule. -/

namespace Sys2Proof.Machine

open Sys2Proof.Safety

/-! ### RSP's patterns (R19) -/

theorem idle_eq_rspIdle : Rsp.idle = rspIdle := rfl

theorem enc_noResult : Rsp.enc (.ok .noResult) = rspNoResult := rfl

theorem enc_position (lat lon : F64) :
    Rsp.enc (.ok (.position lat lon)) = rspPosition lat lon := rfl

theorem enc_positionExtended (lat lon : F64) (alt : Int) (hdop : F64) :
    Rsp.enc (.ok (.positionExtended lat lon alt hdop)) = rspExtended lat lon alt hdop := rfl

theorem enc_range : Rsp.enc (.error .range) = rspRange := rfl

theorem enc_width : Rsp.enc (.error .width) = rspWidth := rfl

/-- What an outcome's encoding or the idle pattern can be: a row of the table of R19. -/
theorem legitRsp_row {r : Rsp} (h : LegitRsp r) :
    r = rspIdle ∨ r = rspNoResult ∨ (∃ lat lon, r = rspPosition lat lon) ∨
      (∃ lat lon alt hdop, r = rspExtended lat lon alt hdop) ∨ r = rspRange ∨ r = rspWidth := by
  obtain rfl | ⟨o, rfl⟩ := h
  · exact .inl idle_eq_rspIdle
  · match o with
    | .ok .noResult => exact .inr (.inl enc_noResult)
    | .ok (.position lat lon) => exact .inr (.inr (.inl ⟨_, _, enc_position lat lon⟩))
    | .ok (.positionExtended lat lon alt hdop) =>
      exact .inr (.inr (.inr (.inl ⟨_, _, _, _, enc_positionExtended lat lon alt hdop⟩)))
    | .error .range => exact .inr (.inr (.inr (.inr (.inl enc_range))))
    | .error .width => exact .inr (.inr (.inr (.inr (.inr enc_width))))

/-- A fault code goes with `kind = 3` and with nothing else, code 3 is never shown, and only the
idle pattern has `valid = 0` (R19, R102). -/
theorem legitRsp_fault_kind_valid {r : Rsp} (h : LegitRsp r) :
    (r.fault ≠ 0 ↔ r.kind = 3) ∧ r.fault ≠ 3 ∧ (r.valid = false → r = rspIdle) := by
  obtain rfl | rfl | ⟨lat, lon, rfl⟩ | ⟨lat, lon, alt, hdop, rfl⟩ | rfl | rfl := legitRsp_row h
  · simp [rspIdle]
  · simp [rspNoResult]
  · simp [rspPosition]
  · simp [rspExtended]
  · simp [rspRange]
  · simp [rspWidth]

/-! ### The ports (R17) -/

theorem bytesOf_getD (count w i : Nat) :
    (bytesOf count w).getD i 0 = if i < count then BitVec.ofNat 8 (w / 256 ^ i) else 0 := by
  by_cases h : i < count <;> simp [bytesOf, h]

@[simp] theorem Payload.ofPorts_plen (reqLen : Nat) (d : BitVec 88) :
    (Payload.ofPorts reqLen d).plen = reqLen := rfl

/-- The payload on the ports has bits `8*i+7` to `8*i` of `req_data` as byte `i`, zeros past
them. -/
@[simp] theorem Payload.ofPorts_byte (reqLen : Nat) (d : BitVec 88) (i : Nat) :
    (Payload.ofPorts reqLen d).byte i = d.extractLsb' (8 * i) 8 := by
  have hread : (Payload.ofPorts reqLen d).byte i = (bytesOf Config.pwin d.toNat).getD i 0 := by
    simpa [Payload.ofPorts, Payload.byte] using
      Memory.read_ofBytes (bytesOf Config.pwin d.toNat) 0 i
  rw [hread, bytesOf_getD]
  apply BitVec.eq_of_toNat_eq
  have hpow : 256 ^ i = 2 ^ (8 * i) := by rw [pow_mul]; norm_num
  split
  · simp [Nat.shiftRight_eq_div_pow, hpow]
  · rename_i hi
    have hbig : d.toNat < 2 ^ (8 * i) :=
      d.isLt.trans_le (Nat.pow_le_pow_right (by omega) (by simp [Config.pwin] at hi; omega))
    simp [Nat.shiftRight_eq_div_pow, Nat.div_eq_of_lt hbig]

/-- The first `n` lanes of `req_data`, bit by bit. -/
theorem lanes_getLsbD (p : Payload) (n j : Nat) (hj : j < 88) :
    ((List.range n).foldl
      (fun acc i => acc ||| ((p.byte i).setWidth 88 <<< (8 * i))) (0 : BitVec 88)).getLsbD j =
      (decide (j < 8 * n) && (p.byte (j / 8)).getLsbD (j % 8)) := by
  induction n with
  | zero => simp
  | succ n ih =>
    rw [List.range_succ, List.foldl_append, List.foldl_cons, List.foldl_nil, BitVec.getLsbD_or, ih]
    by_cases hlow : j < 8 * n
    · simp [hlow, show j < 8 * (n + 1) by omega]
    · by_cases hin : j < 8 * (n + 1)
      · have hdiv : j / 8 = n := by omega
        have hmod : j - 8 * n = j % 8 := by omega
        simp [hlow, hin, hdiv, hmod, hj]
      · have hout : (p.byte n).getLsbD (j - 8 * n) = false := BitVec.getLsbD_of_ge _ _ (by omega)
        simp [hlow, hin, hout]

/-- Bit `j` of the port `req_data` is bit `j % 8` of byte `j / 8`. -/
theorem Edge.reqData_getLsbD (e : Edge) {j : Nat} (hj : j < 88) :
    e.reqData.getLsbD j = (e.payload.byte (j / 8)).getLsbD (j % 8) := by
  rw [Edge.reqData, lanes_getLsbD _ _ _ hj]
  simp [Config.pwin, hj]

/-! ### What `DECODE` reads (R100) -/

theorem fieldLsb_congr {p q : Payload} {offset len : Nat}
    (h : ∀ i < len, p.byte (offset + i) = q.byte (offset + i)) :
    fieldLsb p offset len = fieldLsb q offset len := by
  have hsum : assembledLsb p offset len = assembledLsb q offset len :=
    Finset.sum_congr rfl fun i hi => by rw [h i (Finset.mem_range.mp hi)]
  rw [fieldLsb, fieldLsb, hsum]

theorem fieldNet_congr {p q : Payload} {offset len : Nat}
    (h : ∀ i < len, p.byte (offset + i) = q.byte (offset + i)) :
    fieldNet p offset len = fieldNet q offset len := by
  have hsum : assembledNet p offset len = assembledNet q offset len :=
    Finset.sum_congr rfl fun i hi => by rw [h i (Finset.mem_range.mp hi)]
  rw [fieldNet, fieldNet, hsum]

/-- `POS` reads `plen` and bytes 1 to 6. -/
theorem pos_congr {p q : Payload} (hlen : p.plen = q.plen)
    (h : ∀ i, 1 ≤ i → i ≤ 6 → i < p.plen → p.byte i = q.byte i) : pos p = pos q := by
  rw [pos_eq, pos_eq, ← hlen]
  split
  · rfl
  · rw [fieldLsb_congr (p := p) (offset := 1) fun i _ => h (1 + i) (by omega) (by omega) (by omega),
      fieldLsb_congr (p := p) (offset := 4) fun i _ => h (4 + i) (by omega) (by omega) (by omega)]

/-- `POSX` reads `plen` and bytes 1 to 10. -/
theorem posx_congr {p q : Payload} (hlen : p.plen = q.plen)
    (h : ∀ i, 1 ≤ i → i ≤ 10 → i < p.plen → p.byte i = q.byte i) : posx p = posx q := by
  rw [posx_eq, posx_eq, ← hlen]
  split
  · rfl
  · rw [fieldNet_congr (p := p) (offset := 1) fun i _ => h (1 + i) (by omega) (by omega) (by omega),
      fieldNet_congr (p := p) (offset := 4) fun i _ => h (4 + i) (by omega) (by omega) (by omega),
      fieldNet_congr (p := p) (offset := 7) fun i _ => h (7 + i) (by omega) (by omega) (by omega),
      fieldNet_congr (p := p) (offset := 9) fun i _ => h (9 + i) (by omega) (by omega) (by omega)]

/-- `DECODE` answers the same to payloads that agree on what it may read, on any channels
(R99, R100). -/
theorem decodeFix_congr {p q : Payload} (h : SameReads p q) (chan chan' : Nat) :
    decodeFix p chan = decodeFix q chan' := by
  obtain ⟨hlen, htag, hp7, hp11⟩ := h
  rw [decodeFix_eq, decodeFix_eq]
  simp only [tagIsP7, tagIsP11, ← hlen, ← htag] at hp7 hp11 ⊢
  split
  · rfl
  · split
    · exact pos_congr hlen (hp7 ‹_›)
    · split
      · exact posx_congr hlen (hp11 ‹_›)
      · rfl

/-- `DECODE` reads no byte at index `plen` or above, and none at 11 or above (R28). -/
theorem decodeFix_congr_window {p q : Payload} (hlen : p.plen = q.plen)
    (h : ∀ i, i < min p.plen 11 → p.byte i = q.byte i) (chan chan' : Nat) :
    decodeFix p chan = decodeFix q chan' := by
  by_cases hempty : p.plen = 0
  · rw [decodeFix_eq, decodeFix_eq, if_pos hempty, if_pos (hlen ▸ hempty)]
  · exact decodeFix_congr ⟨hlen, h 0 (by omega), fun _ i _ _ _ => h i (by omega),
      fun _ i _ _ _ => h i (by omega)⟩ chan chan'

/-! ### The edge with no bench's call (R26) -/

/-- The operation the tag selects is what `DECODE` does (R94). -/
theorem exec_decodeTag {s : State} {tag : Byte} (h : s.pins.payload.memRead 0 = .ok tag) :
    exec (decodeTag tag) s = exec .decode s := by
  have hdecode : exec .decode s = complete (decodeFix s.pins.payload s.pins.reqChan) s := rfl
  have hfix : decodeFix s.pins.payload s.pins.reqChan =
      if tag = 0x01#8 then pos s.pins.payload
      else if tag = 0x02#8 then pos s.pins.payload
      else if tag = 0x05#8 then posx s.pins.payload
      else .ok .noResult := by rw [decodeFix, h]; rfl
  rw [hdecode, hfix, decodeTag]
  split_ifs
  · rfl
  · rfl
  · rfl
  · rfl

/-- An operation that ends in the outcome `o` leaves its encoding in RSP, and the edge moves on. -/
theorem afterEdge_complete (o : Except Fault DecodedFix) (s : State) :
    afterEdge (complete o s) = .next (edgeLeaves s (Rsp.enc o) .none) := by
  rw [complete_next, afterEdge, toNextEdge_eq_edgeLeaves]; rfl

theorem selectAction_of_rst {e : Edge} (h : e.rst = true) : selectAction e = .idle := by
  rw [selectAction, if_pos h]

theorem selectAction_of_noRequest {e : Edge} (hcall : e.call = none) (hvalid : e.reqValid = false) :
    selectAction e = .idle := by
  simp [selectAction, hcall, hvalid]

theorem selectAction_of_request {e : Edge} (hrst : e.rst = false) (hcall : e.call = none)
    (hvalid : e.reqValid = true) : selectAction e = fetchTag e.payload := by
  simp [selectAction, hrst, hcall, hvalid]

theorem step_eq_of_idle {s : State} (h : selectAction s.pins = .idle) :
    step s = .next (edgeLeaves s rspIdle .none) := by
  rw [step_of_idle h, toNextEdge_eq_edgeLeaves]; rfl

/-- A request's edge runs `DECODE` (R26, R94), the fault of the tag read included. -/
theorem step_of_requests {s : State} (h : Requests s) : step s = afterEdge (exec .decode s) := by
  obtain ⟨hrst, hcall, hvalid⟩ := h
  have hsel := selectAction_of_request hrst hcall hvalid
  cases hread : s.pins.payload.memRead 0 with
  | ok tag =>
    rw [step_of_run (i := decodeTag tag) (by rw [hsel, fetchTag, hread]), exec_decodeTag hread]
  | error f =>
    have hdecode : exec .decode s = complete (.error f) s := by
      rw [exec, execDecode, decodeFix, hread]; rfl
    rw [step_of_fault (f := f) (by rw [hsel, fetchTag, hread]), hdecode]; rfl

/-- Everything an edge with no bench's call does: RSP takes the answer to what the pins carry
(R26). -/
theorem step_of_noCall {s : State} (hcall : s.pins.call = none) :
    step s = .next (edgeLeaves s (answer s.pins) .none) := by
  cases hrst : s.pins.rst with
  | true => rw [step_eq_of_idle (selectAction_of_rst hrst), answer, if_pos hrst]
  | false =>
    cases hvalid : s.pins.reqValid with
    | false =>
      rw [step_eq_of_idle (selectAction_of_noRequest hcall hvalid)]
      simp [answer, hvalid]
    | true =>
      rw [step_of_requests ⟨hrst, hcall, hvalid⟩, exec, execDecode, afterEdge_complete]
      simp [answer, hrst, hvalid]

/-- Two port cycles with one answer give the same step. -/
theorem step_congr_of_answer {s : State} {e e' : Edge} (he : e.call = none) (he' : e'.call = none)
    (h : answer e = answer e') : step { s with pins := e } = step { s with pins := e' } := by
  rw [step_of_noCall (s := { s with pins := e }) he,
    step_of_noCall (s := { s with pins := e' }) he', h]
  rfl

/-- The answer depends on `rst`, on `req_valid` and, where there is a request, on `DECODE`'s
outcome. -/
theorem answer_congr {e e' : Edge} (hrst : e.rst = e'.rst) (hvalid : e.reqValid = e'.reqValid)
    (h : e.reqValid = true → decodeFix e.payload e.reqChan = decodeFix e'.payload e'.reqChan) :
    answer e = answer e' := by
  rw [answer, answer, ← hrst, ← hvalid]
  split
  · rfl
  · split
    · rw [h ‹_›]
    · rfl

/-! ### The host's schedule (log 1, log 2) -/

/-- What holds of the idle edge and of every edge to come holds of every edge after a step. -/
theorem forall_nextSchedule {P : Edge → Prop} {s : State} (hidle : P Edge.idle)
    (h : ∀ e ∈ s.upcoming, P e) : ∀ e ∈ nextPins s :: nextUpcoming s, P e := by
  rw [nextPins, nextUpcoming]
  cases hs : s.upcoming with
  | nil => simpa using hidle
  | cons e rest => simpa [hs] using h

/-- The schedule after a step is the old one without its first edge. -/
theorem nextSchedule_getD (s : State) (k : Nat) :
    (nextPins s :: nextUpcoming s).getD k Edge.idle = s.upcoming.getD k Edge.idle := by
  rw [nextPins, nextUpcoming]
  cases s.upcoming with
  | nil => cases k <;> rfl
  | cons e rest => rfl

theorem coreRun_succ (M : Host.Core) {s t : M.State} (k : Nat) (h : M.step s = .next t) :
    M.run (k + 1) s = M.run k t := by
  rw [Host.Core.run, h]

theorem Edge.idle_legal : LegalEdge Edge.idle :=
  ⟨rfl, Nat.zero_le _, Nat.two_pow_pos _⟩

end Sys2Proof.Machine

/-! The obligations about the state and the edge (spec/10_state.md). -/

namespace Sys2Proof.Proofs

open Sys2Proof.Machine Sys2Proof.Safety

/-- Settles O14: the step's answer is legal whatever the state was, and the idle edge that fills a
schedule's end is legal. -/
theorem stepKeepsInvariant : Obligations.StepKeepsInvariant := by
  intro s t ⟨_, _, hupcoming⟩ hstep
  obtain ⟨r, u, hnext, hr⟩ := step_next s
  obtain rfl : edgeLeaves s r u = t := by simpa [hnext] using hstep
  have hlegal := forall_nextSchedule Edge.idle_legal hupcoming
  exact ⟨hr, List.forall_mem_cons.mp hlegal⟩

/-- Settles O4: the edge rule is `answer`, and byte `i` of the payload on the ports is its lane of
`req_data`. -/
theorem stepIsTheEdgeRule : Obligations.StepIsTheEdgeRule := by
  refine ⟨fun s hcall => ⟨_, step_of_noCall hcall, rfl⟩,
    fun rst valid reqLen d chan i => ⟨rfl, rfl, fun hi => ?_⟩⟩
  have hlt : i < (Payload.ofPorts reqLen d).plen := by rw [Payload.ofPorts_plen]; omega
  rw [Edge.ofPorts, Payload.memRead_of_lt hlt, Payload.ofPorts_byte]

/-- Settles O6: every step leaves a row of R19's table in RSP. -/
theorem everyEdgeLeavesAnOutcome : Obligations.EveryEdgeLeavesAnOutcome := by
  intro s t hstep
  obtain ⟨r, u, hnext, hr⟩ := step_next s
  obtain rfl : edgeLeaves s r u = t := by simpa [hnext] using hstep
  have hlegit : LegitRsp r := hr
  exact ⟨hlegit, legitRsp_fault_kind_valid hlegit⟩

/-- Settles O9, by induction on the number of edges: the first step moves the schedule on by one. -/
theorem runAnswersEveryEdge : Obligations.RunAnswersEveryEdge := by
  intro k
  induction k with
  | zero =>
    intro s hcalls
    have hstep := step_of_noCall (hcalls _ List.mem_cons_self)
    exact ⟨_, coreRun_succ core 0 hstep, rfl, nextSchedule_getD s 0⟩
  | succ k ih =>
    intro s hcalls
    have hstep := step_of_noCall (hcalls _ List.mem_cons_self)
    have hcalls' := forall_nextSchedule (P := fun e => e.call = none) rfl
      fun e he => hcalls e (List.mem_cons_of_mem _ he)
    obtain ⟨t, hrun, hrsp, hpins⟩ := ih (edgeLeaves s (answer s.pins) .none) hcalls'
    refine ⟨t, (coreRun_succ core (k + 1) hstep).trans hrun, ?_, ?_⟩
    · exact hrsp.trans (congrArg answer (nextSchedule_getD s k))
    · exact hpins.trans (nextSchedule_getD s (k + 1))

/-- Settles O19: what lies outside the window changes no answer. -/
theorem requestWindowIgnoresTheRest : Obligations.RequestWindowIgnoresTheRest := by
  refine ⟨fun s rst valid reqLen d d' chan hbits => ?_, fun s p hcall hlen hbytes => ?_,
    fun s p chan hcall hvalid => ?_⟩
  · have hbytes (i : Nat) (hi : i < min reqLen 11) :
        (Payload.ofPorts reqLen d).byte i = (Payload.ofPorts reqLen d').byte i := by
      rw [Payload.ofPorts_byte, Payload.ofPorts_byte]
      ext j hj
      simp [hbits (8 * i + j) (by omega)]
    have hfix : decodeFix (Payload.ofPorts reqLen d) chan =
        decodeFix (Payload.ofPorts reqLen d') chan :=
      decodeFix_congr_window (by simp) hbytes chan chan
    exact step_congr_of_answer rfl rfl (answer_congr rfl rfl fun _ => hfix)
  · exact step_congr_of_answer (e' := s.pins) hcall hcall
      (answer_congr rfl rfl fun _ => decodeFix_congr_window hlen hbytes _ _)
  · exact step_congr_of_answer (e' := s.pins) hcall hcall
      (answer_congr rfl rfl fun h => absurd h (by simp [hvalid]))

/-- Settles O20, bit by bit. -/
theorem requestDataReadsBack : Obligations.RequestDataReadsBack := by
  intro rst valid reqLen d chan
  refine BitVec.eq_of_getLsbD_eq fun j hj => ?_
  rw [Edge.reqData_getLsbD _ hj, Edge.ofPorts, Payload.ofPorts_byte, BitVec.getLsbD_extractLsb',
    Nat.div_add_mod]
  simp [Nat.mod_lt]

/-- Settles O3: with no request the answer is the idle pattern. -/
theorem edgeWithoutRequestIsIdle : Obligations.EdgeWithoutRequestIsIdle := by
  intro s _ hcall hvalid
  exact ⟨_, step_eq_of_idle (selectAction_of_noRequest hcall hvalid), rfl⟩

/-- Settles O5, row by row. -/
theorem encodingOfOutcomes : Obligations.EncodingOfOutcomes :=
  ⟨idle_eq_rspIdle, enc_noResult, enc_position, enc_positionExtended, enc_range, enc_width⟩

/-- Settles O13: the reset state has the idle pattern, an idle edge and no further edges. -/
theorem resetMeetsInvariant : Obligations.ResetMeetsInvariant :=
  ⟨.inl rfl, Edge.idle_legal, List.forall_mem_nil _⟩

/-- Settles O15: `readConst` and the scaler read the same three constants of Config. -/
theorem constantsAreWired : Obligations.ConstantsAreWired := by
  intro s
  exact ⟨rfl, rfl, rfl, fun _ => ⟨rfl, rfl, rfl⟩⟩

end Sys2Proof.Proofs

/-! PROOFS. The facts behind the statements about the payload buffer (spec/20_memory.md): what the two
kinds of operation leave, and a field in range in both byte orders. -/

namespace Sys2Proof.Machine

open Sys2Proof.Safety

/-! ### The frame of an operation (R31, R38) -/

/-- The operations that end in a transaction's outcome; every other one is a unit's call. -/
def IsTransaction (i : Instr) : Prop :=
  i ∈ [.pos1, .pos2, .posx, .decode, .pos] ∨ ∃ tag, i = .noResult tag

@[simp] theorem Rsp.enc_valid (o : Except Fault DecodedFix) : (Rsp.enc o).valid = true := by
  match o with
  | .ok .noResult => rfl
  | .ok (.position _ _) => rfl
  | .ok (.positionExtended _ _ _ _) => rfl
  | .error _ => rfl

theorem enc_fault_range_or_width (f : Fault) :
    Rsp.enc (.error f) = rspRange ∨ Rsp.enc (.error f) = rspWidth := by
  cases f with
  | range => exact .inl enc_range
  | width => exact .inr enc_width

/-- What is wrapped as a unit's value is not the model's "no value". -/
theorem map_ne_ok_none {α : Type} {wrap : α → UnitOut} (hwrap : ∀ a, wrap a ≠ .none)
    (o : Except Fault α) : o.map wrap ≠ .ok .none := by
  cases o with
  | ok a => exact fun h => hwrap a (Except.ok.inj h)
  | error f => simp [Except.map]

/-- Every operation ends in one of two ways: a transaction with an outcome, a unit's call with a value
or a fault. -/
theorem exec_completes (i : Instr) (s : State) :
    (IsTransaction i ∧ ∃ o, exec i s = complete o s) ∨
      (¬IsTransaction i ∧ ∃ o, exec i s = completeUnit o s ∧ o ≠ .ok .none) := by
  cases i with
  | pos1 => exact .inl ⟨by simp [IsTransaction], _, rfl⟩
  | pos2 => exact .inl ⟨by simp [IsTransaction], _, rfl⟩
  | posx => exact .inl ⟨by simp [IsTransaction], _, rfl⟩
  | noResult tag => exact .inl ⟨by simp [IsTransaction], .ok .noResult, rfl⟩
  | decode => exact .inl ⟨by simp [IsTransaction], _, rfl⟩
  | pos => exact .inl ⟨by simp [IsTransaction], _, rfl⟩
  | xlsb offset len =>
    exact .inr ⟨by simp [IsTransaction], _, rfl, map_ne_ok_none (by simp) _⟩
  | xnet offset len =>
    exact .inr ⟨by simp [IsTransaction], _, rfl, map_ne_ok_none (by simp) _⟩
  | sext v len =>
    exact .inr ⟨by simp [IsTransaction], _, rfl, map_ne_ok_none (by simp) _⟩
  | scaleLat raw => exact .inr ⟨by simp [IsTransaction], .ok (.float _), rfl, by simp⟩
  | scaleLon raw => exact .inr ⟨by simp [IsTransaction], .ok (.float _), rfl, by simp⟩
  | scaleHdop raw => exact .inr ⟨by simp [IsTransaction], .ok (.float _), rfl, by simp⟩
  | scalePass raw => exact .inr ⟨by simp [IsTransaction], .ok (.int _), rfl, by simp⟩

/-- No operation touches the ports, the buffer behind them, or the host's schedule. -/
theorem exec_frame {i : Instr} {s t : State} (h : exec i s = .next t) :
    t.pins = s.pins ∧ t.upcoming = s.upcoming := by
  obtain ⟨r, u, hnext, -⟩ := exec_next i s
  obtain rfl : { s with rsp := r, unit := u } = t := by simpa [hnext] using h
  exact ⟨rfl, rfl⟩

/-- A transaction leaves a valid response and no unit value. -/
theorem complete_leaves {o : Except Fault DecodedFix} {s t : State} (h : complete o s = .next t) :
    t.unit = .none ∧ t.rsp.valid = true := by
  obtain rfl : { s with rsp := Rsp.enc o, unit := .none } = t := by simpa [complete_next] using h
  exact ⟨rfl, Rsp.enc_valid o⟩

/-- A unit's call leaves its value and an idle RSP, or no value and its fault. -/
theorem completeUnit_leaves {o : Except Fault UnitOut} {s t : State} (ho : o ≠ .ok .none)
    (h : completeUnit o s = .next t) :
    t.unit ≠ .none ∧ t.rsp = rspIdle ∨ t.unit = .none ∧ (t.rsp = rspRange ∨ t.rsp = rspWidth) := by
  cases o with
  | ok v =>
    obtain rfl : returnUnit v s = t := by simpa [completeUnit] using h
    exact .inl ⟨fun hv : v = .none => ho (congrArg Except.ok hv), idle_eq_rspIdle⟩
  | error f =>
    obtain rfl : takeFault f s = t := by simpa [completeUnit] using h
    exact .inr ⟨rfl, enc_fault_range_or_width f⟩

/-! ### A field in range, in both byte orders (R35, R49, R50) -/

theorem xlsb_of_inRange {p : Payload} {offset : Nat} {len : BitVec 3} (hlen : lenOk len = true)
    (h : offset + len.toNat ≤ p.plen) : xlsb p offset len = .ok (fieldLsb p offset len.toNat) := by
  rw [xlsb_eq, if_neg (by simp [hlen]), if_neg (by omega)]

theorem xnet_of_inRange {p : Payload} {offset : Nat} {len : BitVec 3} (hlen : lenOk len = true)
    (h : offset + len.toNat ≤ p.plen) : xnet p offset len = .ok (fieldNet p offset len.toNat) := by
  rw [xnet_eq, if_neg (by simp [hlen]), if_neg (by omega)]

theorem assembledLsb_two (p : Payload) (offset : Nat) :
    assembledLsb p offset 2 = (p.byte offset).toNat + 256 * (p.byte (offset + 1)).toNat := by
  simp [assembledLsb, Finset.sum_range_succ, mul_comm]

theorem assembledLsb_three (p : Payload) (offset : Nat) :
    assembledLsb p offset 3 = (p.byte offset).toNat + 256 * (p.byte (offset + 1)).toNat +
      65536 * (p.byte (offset + 2)).toNat := by
  simp [assembledLsb, Finset.sum_range_succ, mul_comm]

theorem assembledNet_two (p : Payload) (offset : Nat) :
    assembledNet p offset 2 = 256 * (p.byte offset).toNat + (p.byte (offset + 1)).toNat := by
  simp [assembledNet, Finset.sum_range_succ, mul_comm]

theorem assembledNet_three (p : Payload) (offset : Nat) :
    assembledNet p offset 3 = 65536 * (p.byte offset).toNat + 256 * (p.byte (offset + 1)).toNat +
      (p.byte (offset + 2)).toNat := by
  simp [assembledNet, Finset.sum_range_succ, mul_comm]

/-- The two's-complement reading tells patterns of its width apart (R51). -/
theorem signedOf_inj {bits a b : Nat} (ha : a < 2 ^ bits) (hb : b < 2 ^ bits) :
    signedOf bits a = signedOf bits b ↔ a = b := by
  have hcast : ((2 ^ bits : Nat) : Int) = 2 ^ bits := Nat.cast_pow 2 bits
  rw [signedOf, signedOf]
  split_ifs <;> omega

/-- The two orders read a field in range alike exactly when they assemble the same pattern. -/
theorem xlsb_eq_xnet_iff {p : Payload} {offset : Nat} {len : BitVec 3} (hlen : lenOk len = true)
    (h : offset + len.toNat ≤ p.plen) :
    xlsb p offset len = xnet p offset len ↔
      assembledLsb p offset len.toNat = assembledNet p offset len.toNat := by
  rw [xlsb_of_inRange hlen h, xnet_of_inRange hlen h, Except.ok.injEq, fieldLsb, fieldNet]
  exact signedOf_inj (assembledLsb_lt ..) (assembledNet_lt ..)

end Sys2Proof.Machine

/-! The obligations about the payload buffer (spec/20_memory.md). -/

namespace Sys2Proof.Proofs

open Sys2Proof.Machine Sys2Proof.Safety

/-- Settles O17: the inputs by the frame of `exec`, RSP and the unit value by the way the operation
ends. -/
theorem operationsLeaveInputsAlone : Obligations.OperationsLeaveInputsAlone := by
  intro i s t h
  obtain ⟨hpins, hupcoming⟩ := exec_frame h
  refine ⟨hpins, hupcoming, fun a => by rw [hpins], fun _ => rfl, ?_⟩
  obtain ⟨hi, o, ho⟩ | ⟨hi, o, ho, hvalue⟩ := exec_completes i s
  · exact ⟨fun _ => complete_leaves (ho ▸ h), fun hn => absurd hi hn⟩
  · exact ⟨fun ht => absurd ht hi, fun _ => completeUnit_leaves hvalue (ho ▸ h)⟩

/-- Settles O18: each order's value is the reading of its own sum, and for 3 bytes the sums agree
exactly when the outer bytes do. -/
theorem byteOrdersOfOneField : Obligations.ByteOrdersOfOneField := by
  rintro p o _ _ _ rfl rfl rfl
  refine ⟨fun h3 => ⟨?_, ?_, ?_⟩, fun h2 => ⟨?_, ?_⟩⟩
  · rw [← assembledLsb_three]; exact xlsb_of_inRange (by decide) h3
  · rw [← assembledNet_three]; exact xnet_of_inRange (by decide) h3
  · have hsums := xlsb_eq_xnet_iff (len := 3) (by decide) h3
    rw [hsums, show BitVec.toNat (3 : BitVec 3) = 3 from rfl, assembledLsb_three, assembledNet_three]
    omega
  · rw [← assembledLsb_two]; exact xlsb_of_inRange (by decide) h2
  · rw [← assembledNet_two]; exact xnet_of_inRange (by decide) h2

/-- Settles O16: the two sides of the range check of `memRead`. -/
theorem readOutOfRangeFaults : Obligations.ReadOutOfRangeFaults :=
  fun _ _ => ⟨Payload.memRead_of_ge, Payload.memRead_of_lt⟩

end Sys2Proof.Proofs

/-! PROOFS. The facts behind the statements about encodings and fields (spec/30_encoding.md,
spec/41_extractors.md): packing undone by extraction, the range of a field, the decoded layouts, the
tag map. -/

namespace Sys2Proof.Machine

open Sys2Proof.Safety

/-! ### A packed field is its operand again (R64, R49 to R51) -/

/-- The low `len` bytes of a number add up to the number, cut to `8 * len` bits. -/
theorem sum_bytes_eq_mod (u len : Nat) :
    ∑ i ∈ Finset.range len, u >>> (8 * i) % 256 * 2 ^ (8 * i) = u % 2 ^ (8 * len) := by
  induction len with
  | zero => simp [Nat.mod_one]
  | succ n ih =>
    rw [Finset.sum_range_succ, ih, show 8 * (n + 1) = 8 * n + 8 by ring, pow_add, Nat.mod_mul,
      Nat.shiftRight_eq_div_pow, mul_comm (2 ^ (8 * n)),
      show (256 : Nat) = 2 ^ 8 from rfl]

theorem assembledLsb_of_bytes {p : Payload} {offset len u : Nat}
    (h : ∀ i < len, (p.byte (offset + i)).toNat = u >>> (8 * i) % 256) :
    assembledLsb p offset len = u % 2 ^ (8 * len) := by
  rw [← sum_bytes_eq_mod]
  exact Finset.sum_congr rfl fun i hi => by rw [h i (Finset.mem_range.mp hi)]

theorem assembledNet_of_bytes {p : Payload} {offset len u : Nat}
    (h : ∀ i < len, (p.byte (offset + i)).toNat = u >>> (8 * (len - 1 - i)) % 256) :
    assembledNet p offset len = u % 2 ^ (8 * len) := by
  rw [← sum_bytes_eq_mod, ← Finset.sum_range_reflect]
  exact Finset.sum_congr rfl fun i hi => by rw [h i (Finset.mem_range.mp hi)]

/-- `n` is a two's-complement value of `bits` bits (R51). -/
def FitsSigned (bits : Nat) (n : Int) : Prop := -(2 ^ (bits - 1)) ≤ n ∧ n < 2 ^ (bits - 1)

theorem two_pow_eq_double {bits : Nat} (hbits : 1 ≤ bits) :
    (2 : Int) ^ bits = 2 * 2 ^ (bits - 1) := by
  rw [← pow_succ', Nat.sub_add_cancel hbits]

theorem signedOf_fits {bits u : Nat} (hbits : 1 ≤ bits) (hu : u < 2 ^ bits) :
    FitsSigned bits (signedOf bits u) := by
  have hdouble := two_pow_eq_double hbits
  have hu' : (u : Int) < 2 ^ bits := by exact_mod_cast hu
  rw [FitsSigned, signedOf]
  split
  · rename_i hlow
    have hlow' : (u : Int) < 2 ^ (bits - 1) := by exact_mod_cast hlow
    omega
  · rename_i hhigh
    have hhigh' : (2 : Int) ^ (bits - 1) ≤ u := by exact_mod_cast not_lt.mp hhigh
    omega

/-- The pattern of a value in range reads as that value again (R51, R64). -/
theorem signedOf_pattern {bits : Nat} {n : Int} (hbits : 1 ≤ bits) (hn : FitsSigned bits n) :
    signedOf bits (n % 2 ^ bits).toNat = n := by
  obtain ⟨hlo, hhi⟩ := hn
  have hdouble := two_pow_eq_double hbits
  have hcast : ((n % 2 ^ bits).toNat : Int) = n % 2 ^ bits :=
    Int.toNat_of_nonneg (Int.emod_nonneg n (by positivity))
  have hhalf : (n % 2 ^ bits).toNat < 2 ^ (bits - 1) ↔ n % 2 ^ bits < 2 ^ (bits - 1) := by
    rw [← hcast]; norm_cast
  rw [signedOf, hcast]
  simp only [hhalf]
  rcases lt_or_ge n 0 with hneg | hpos
  · have hmod : n % 2 ^ bits = n + 2 ^ bits := by
      rw [← Int.add_emod_right, Int.emod_eq_of_lt (by omega) (by omega)]
    rw [hmod, if_neg (by omega)]
    omega
  · have hmod : n % 2 ^ bits = n := Int.emod_eq_of_lt hpos (by omega)
    rw [hmod, if_pos hhi]

theorem pattern_mod (bits : Nat) (n : Int) :
    (n % 2 ^ bits).toNat % 2 ^ bits = (n % 2 ^ bits).toNat := by
  have hpos : (0 : Int) < 2 ^ bits := by positivity
  have hlt : ((n % 2 ^ bits).toNat : Int) < 2 ^ bits := by
    rw [Int.toNat_of_nonneg (Int.emod_nonneg n hpos.ne')]
    exact Int.emod_lt_of_pos n hpos
  exact Nat.mod_eq_of_lt (by exact_mod_cast hlt)

theorem fieldLsb_of_packed {p : Payload} {offset len : Nat} {n : Int} (hlen : 1 ≤ len)
    (hn : FitsSigned (8 * len) n)
    (h : ∀ i < len, (p.byte (offset + i)).toNat = (n % 2 ^ (8 * len)).toNat >>> (8 * i) % 256) :
    fieldLsb p offset len = n := by
  rw [fieldLsb, assembledLsb_of_bytes h, pattern_mod, signedOf_pattern (by omega) hn]

theorem fieldNet_of_packed {p : Payload} {offset len : Nat} {n : Int} (hlen : 1 ≤ len)
    (hn : FitsSigned (8 * len) n)
    (h : ∀ i < len, (p.byte (offset + i)).toNat =
      (n % 2 ^ (8 * len)).toNat >>> (8 * (len - 1 - i)) % 256) :
    fieldNet p offset len = n := by
  rw [fieldNet, assembledNet_of_bytes h, pattern_mod, signedOf_pattern (by omega) hn]

/-! ### Packed fields inside a payload (R62) -/

@[simp] theorem packLsb_length (n : Int) (len : Nat) : (packLsb n len).length = len := by
  simp [packLsb]

@[simp] theorem packMsb_length (n : Int) (len : Nat) : (packMsb n len).length = len := by
  simp [packMsb]

/-- Inside a payload, the bytes of one part are read at that part's offset. -/
theorem ofBytes_byte_within (before part after : List Byte) {i : Nat} (hi : i < part.length) :
    (Payload.ofBytes (before ++ (part ++ after))).byte (before.length + i) = part.getD i 0 := by
  rw [Payload.ofBytes_byte, List.getD_append_right _ _ _ _ (Nat.le_add_right ..),
    Nat.add_sub_cancel_left, List.getD_append _ _ _ _ hi]

theorem fieldLsb_packLsb (before after : List Byte) {len : Nat} {n : Int} (hlen : 1 ≤ len)
    (hn : FitsSigned (8 * len) n) :
    fieldLsb (Payload.ofBytes (before ++ (packLsb n len ++ after))) before.length len = n := by
  refine fieldLsb_of_packed hlen hn fun i hi => ?_
  rw [ofBytes_byte_within _ _ _ (by simpa using hi)]
  simp [packLsb, hi]

theorem fieldNet_packMsb (before after : List Byte) {len : Nat} {n : Int} (hlen : 1 ≤ len)
    (hn : FitsSigned (8 * len) n) :
    fieldNet (Payload.ofBytes (before ++ (packMsb n len ++ after))) before.length len = n := by
  refine fieldNet_of_packed hlen hn fun i hi => ?_
  rw [ofBytes_byte_within _ _ _ (by simpa using hi)]
  simp [packMsb, hi]

section PackedP7

variable {lat lon : Int} (tag : Byte) (extra : List Byte)

theorem packP7_plen : 7 ≤ (Payload.ofBytes (packP7 tag lat lon ++ extra)).plen := by
  simp [packP7]; omega

theorem packP7_byte_zero : (Payload.ofBytes (packP7 tag lat lon ++ extra)).byte 0 = tag := by
  simp [packP7]

theorem packP7_lat (h : FitsSigned 24 lat) :
    fieldLsb (Payload.ofBytes (packP7 tag lat lon ++ extra)) 1 3 = lat := by
  simpa [packP7] using fieldLsb_packLsb [tag] (packLsb lon 3 ++ extra) (len := 3) (by omega) h

theorem packP7_lon (h : FitsSigned 24 lon) :
    fieldLsb (Payload.ofBytes (packP7 tag lat lon ++ extra)) 4 3 = lon := by
  simpa [packP7] using fieldLsb_packLsb (tag :: packLsb lat 3) extra (len := 3) (by omega) h

end PackedP7

section PackedP11

variable {lat lon alt hdop : Int} (extra : List Byte)

theorem packP11_plen : 11 ≤ (Payload.ofBytes (packP11 lat lon alt hdop ++ extra)).plen := by
  simp [packP11]; omega

theorem packP11_byte_zero :
    (Payload.ofBytes (packP11 lat lon alt hdop ++ extra)).byte 0 = 0x05#8 := by
  simp [packP11]

theorem packP11_lat (h : FitsSigned 24 lat) :
    fieldNet (Payload.ofBytes (packP11 lat lon alt hdop ++ extra)) 1 3 = lat := by
  simpa [packP11] using fieldNet_packMsb [0x05#8]
    (packMsb lon 3 ++ packMsb alt 2 ++ packMsb hdop 2 ++ extra) (len := 3) (by omega) h

theorem packP11_lon (h : FitsSigned 24 lon) :
    fieldNet (Payload.ofBytes (packP11 lat lon alt hdop ++ extra)) 4 3 = lon := by
  simpa [packP11] using fieldNet_packMsb (0x05#8 :: packMsb lat 3)
    (packMsb alt 2 ++ packMsb hdop 2 ++ extra) (len := 3) (by omega) h

theorem packP11_alt (h : FitsSigned 16 alt) :
    fieldNet (Payload.ofBytes (packP11 lat lon alt hdop ++ extra)) 7 2 = alt := by
  simpa [packP11] using fieldNet_packMsb (0x05#8 :: (packMsb lat 3 ++ packMsb lon 3))
    (packMsb hdop 2 ++ extra) (len := 2) (by omega) h

theorem packP11_hdop (h : FitsSigned 16 hdop) :
    fieldNet (Payload.ofBytes (packP11 lat lon alt hdop ++ extra)) 9 2 = hdop := by
  simpa [packP11] using fieldNet_packMsb
    (0x05#8 :: (packMsb lat 3 ++ packMsb lon 3 ++ packMsb alt 2)) extra (len := 2) (by omega) h

end PackedP11

/-! ### What `DECODE` answers to a complete layout (R57, R94) -/

theorem decodeFix_of_tagIsP7 {p : Payload} (htag : tagIsP7 p) (hlen : 7 ≤ p.plen) (chan : Nat) :
    decodeFix p chan =
      .ok (.position (scaleLat (fieldLsb p 1 3)) (scaleLon (fieldLsb p 4 3))) := by
  rw [decodeFix_eq, if_neg (by omega), if_pos htag, pos_eq, if_neg (by omega)]

theorem decodeFix_of_tagIsP11 {p : Payload} (htag : tagIsP11 p) (hlen : 11 ≤ p.plen) (chan : Nat) :
    decodeFix p chan =
      .ok (.positionExtended (scaleLat (fieldNet p 1 3)) (scaleLon (fieldNet p 4 3))
        (scalePass (fieldNet p 7 2)) (scaleHdop (fieldNet p 9 2))) := by
  have hnotP7 : ¬tagIsP7 p := by rw [tagIsP7, htag]; decide
  rw [decodeFix_eq, if_neg (by omega), if_neg hnotP7, if_pos htag, posx_eq, if_neg (by omega)]

/-- A request with these bytes on the pins is answered by what `DECODE` makes of them (R26). -/
theorem responds_of_request {s : State} {bytes : List Byte} {chan : Nat}
    (h : s.pins = Edge.request bytes chan) :
    Responds (step s) (Rsp.enc (decodeFix (Payload.ofBytes bytes) chan)) := by
  refine ⟨_, step_of_noCall (by rw [h]; rfl), ?_⟩
  rw [h]; rfl

/-! ### The extractors called on their own (R71, R72, R75, R76) -/

/-- An extractor answers a value exactly for a legal width and a field that ends within `plen`. -/
theorem xlsb_ok_iff {p : Payload} {offset : Nat} {len : BitVec 3} {n : Int} :
    xlsb p offset len = .ok n ↔
      lenOk len = true ∧ offset + len.toNat ≤ p.plen ∧ fieldLsb p offset len.toNat = n := by
  rw [xlsb_eq]
  split_ifs with hlen hrange
  · simp [hlen]
  · simp [show ¬offset + len.toNat ≤ p.plen by omega]
  · simp [show lenOk len = true by simpa using hlen, show offset + len.toNat ≤ p.plen by omega]

theorem xnet_ok_iff {p : Payload} {offset : Nat} {len : BitVec 3} {n : Int} :
    xnet p offset len = .ok n ↔
      lenOk len = true ∧ offset + len.toNat ≤ p.plen ∧ fieldNet p offset len.toNat = n := by
  rw [xnet_eq]
  split_ifs with hlen hrange
  · simp [hlen]
  · simp [show ¬offset + len.toNat ≤ p.plen by omega]
  · simp [show lenOk len = true by simpa using hlen, show offset + len.toNat ≤ p.plen by omega]

theorem exec_xlsb_of_ok {s : State} {offset : Nat} {len : BitVec 3} {n : Int}
    (h : xlsb s.pins.payload offset len = .ok n) :
    exec (.xlsb offset len) s = .next { s with rsp := rspIdle, unit := .int n } := by
  rw [exec, execXlsb, h]; rfl

theorem exec_xnet_of_ok {s : State} {offset : Nat} {len : BitVec 3} {n : Int}
    (h : xnet s.pins.payload offset len = .ok n) :
    exec (.xnet offset len) s = .next { s with rsp := rspIdle, unit := .int n } := by
  rw [exec, execXnet, h]; rfl

/-! ### The tag map (R53, R56) -/

/-- What the tag map answers stands in the table, and `tag` is its encoding. -/
theorem decodeTag_wf_encode (tag : Byte) :
    (decodeTag tag).wf = true ∧ encode (decodeTag tag) = some (.payload [tag]) := by
  rw [decodeTag]
  split_ifs with h1 h2 h5
  · simp [Instr.wf, encode, h1]
  · simp [Instr.wf, encode, h2]
  · simp [Instr.wf, encode, h5]
  · simp [Instr.wf, encode, h1, h2, h5]

theorem decodeTag_of_wf_noResult {tag : Byte} (h : (Instr.noResult tag).wf = true) :
    decodeTag tag = .noResult tag := by
  have hother : (tag ≠ 0x01#8 ∧ tag ≠ 0x02#8) ∧ tag ≠ 0x05#8 := by simpa [Instr.wf] using h
  obtain ⟨⟨h1, h2⟩, h5⟩ := hother
  rw [decodeTag, if_neg h1, if_neg h2, if_neg h5]

/-- An operation with an encoding is what its encoding decodes to. -/
theorem decode_encode {i : Instr} {e : Encoded} (hwf : i.wf = true) (he : encode i = some e) :
    decode e = .ok i := by
  cases i with
  | decode => cases he
  | pos => cases he
  | noResult tag => cases he; exact congrArg Except.ok (decodeTag_of_wf_noResult hwf)
  | pos1 => cases he; rfl
  | pos2 => cases he; rfl
  | posx => cases he; rfl
  | xlsb offset len => cases he; rfl
  | xnet offset len => cases he; rfl
  | sext v len => cases he; rfl
  | scaleLat raw => cases he; rfl
  | scaleLon raw => cases he; rfl
  | scaleHdop raw => cases he; rfl
  | scalePass raw => cases he; rfl

theorem eq_decode_or_pos_of_encode_none {i : Instr} (h : encode i = none) :
    i = .decode ∨ i = .pos := by
  cases i with
  | decode => exact .inl rfl
  | pos => exact .inr rfl
  | _ => cases h

end Sys2Proof.Machine

/-! The obligations about encodings and fields (spec/30_encoding.md, spec/41_extractors.md). -/

namespace Sys2Proof.Proofs

open Sys2Proof.Machine Sys2Proof.Safety

/-- Settles O24: the bytes of R64 assemble to the pattern of `n`, whose signed reading is `n`. -/
theorem packedFieldsAreRecovered : Obligations.PackedFieldsAreRecovered := by
  refine ⟨fun p offset len n h1 h4 hlo hhi hrange => ⟨fun hbytes => ?_, fun hbytes => ?_⟩,
    by decide, by decide, by decide⟩
  · exact xlsb_ok_iff.mpr
      ⟨lenOk_iff.mpr ⟨h1, h4⟩, hrange, fieldLsb_of_packed h1 ⟨hlo, hhi⟩ hbytes⟩
  · exact xnet_ok_iff.mpr
      ⟨lenOk_iff.mpr ⟨h1, h4⟩, hrange, fieldNet_of_packed h1 ⟨hlo, hhi⟩ hbytes⟩

/-- Settles O25: the request is a complete P7 layout whose two fields are the operands. -/
theorem packedPosRequestIsAnswered : Obligations.PackedPosRequestIsAnswered := by
  intro s tag lat lon extra chan htag hlat hlat' hlon hlon' hpins
  have htagP7 : tagIsP7 (Payload.ofBytes (packP7 tag lat lon ++ extra)) := by
    rwa [tagIsP7, packP7_byte_zero]
  have hresponds := responds_of_request hpins
  rwa [decodeFix_of_tagIsP7 htagP7 (packP7_plen tag extra),
    packP7_lat tag extra ⟨by omega, by omega⟩, packP7_lon tag extra ⟨by omega, by omega⟩]
    at hresponds

/-- Settles O26: the request is a complete P11 layout whose four fields are the operands. -/
theorem packedPosxRequestIsAnswered : Obligations.PackedPosxRequestIsAnswered := by
  intro s lat lon alt hdop extra chan hlat hlat' hlon hlon' halt halt' hhdop hhdop' hpins
  have hresponds := responds_of_request hpins
  rwa [decodeFix_of_tagIsP11 (packP11_byte_zero extra) (packP11_plen extra),
    packP11_lat extra ⟨by omega, by omega⟩, packP11_lon extra ⟨by omega, by omega⟩,
    packP11_alt extra ⟨by omega, by omega⟩, packP11_hdop extra ⟨by omega, by omega⟩]
    at hresponds

/-- Settles O27: past a layout's last field `DECODE` reads nothing and asks no more of `plen`. -/
theorem trailingBytesAreIgnored : Obligations.TrailingBytesAreIgnored := by
  refine fun p q chan => ⟨fun htag hp hq hbytes => ?_, fun htag hp hq hbytes => ?_⟩
  · have htag' : tagIsP7 q := by rwa [tagIsP7, hbytes 0 (by omega)]
    have hfield (offset : Nat) (h : offset + 3 ≤ 7) : fieldLsb q offset 3 = fieldLsb p offset 3 :=
      fieldLsb_congr fun i hi => hbytes (offset + i) (by omega)
    rw [decodeFix_of_tagIsP7 htag hp, decodeFix_of_tagIsP7 htag' (by omega), hfield 1 (by omega),
      hfield 4 (by omega)]
  · have htag' : tagIsP11 q := by rwa [tagIsP11, hbytes 0 (by omega)]
    have hfield (offset len : Nat) (h : offset + len ≤ 11) :
        fieldNet q offset len = fieldNet p offset len :=
      fieldNet_congr fun i hi => hbytes (offset + i) (by omega)
    rw [decodeFix_of_tagIsP11 htag hp, decodeFix_of_tagIsP11 htag' (by omega),
      hfield 1 3 (by omega), hfield 4 3 (by omega), hfield 7 2 (by omega), hfield 9 2 (by omega)]

/-- Settles O31: `XLSB` in range answers `fieldLsb`, the reading of a sum below `2 ^ (8 * len)`. -/
theorem xlsbReturnsItsField : Obligations.XlsbReturnsItsField := by
  intro s offset len h1 h4 hrange
  exact ⟨exec_xlsb_of_ok (xlsb_of_inRange (lenOk_iff.mpr ⟨h1, h4⟩) hrange), assembledLsb_lt ..⟩

/-- Settles O32: `XNET` in range answers `fieldNet`, the reading of a sum below `2 ^ (8 * len)`. -/
theorem xnetReturnsItsField : Obligations.XnetReturnsItsField := by
  intro s offset len h1 h4 hrange
  exact ⟨exec_xnet_of_ok (xnet_of_inRange (lenOk_iff.mpr ⟨h1, h4⟩) hrange), assembledNet_lt ..⟩

/-- Settles O37: an extracted value is the signed reading of a pattern of its width. -/
theorem extractedValuesAreInRange : Obligations.ExtractedValuesAreInRange := by
  rintro p offset len n (h | h)
  · obtain ⟨hlen, -, rfl⟩ := xlsb_ok_iff.mp h
    obtain ⟨h1, -⟩ := lenOk_iff.mp hlen
    exact signedOf_fits (by omega) (assembledLsb_lt ..)
  · obtain ⟨hlen, -, rfl⟩ := xnet_ok_iff.mp h
    obtain ⟨h1, -⟩ := lenOk_iff.mp hlen
    exact signedOf_fits (by omega) (assembledNet_lt ..)

/-- Settles O21, word by word. -/
theorem writtenOutWordsDecode : Obligations.WrittenOutWordsDecode :=
  ⟨by decide, by decide, by decide, by decide, rfl, rfl, rfl, rfl⟩

/-- Settles O22: mask 0xFF keeps the whole tag and mask 0x00 nothing of it. -/
theorem tagRowsMatchInOrder : Obligations.TagRowsMatchInOrder := by
  intro tag
  have hall : tag &&& 0xFF#8 = tag := BitVec.and_allOnes
  have hnone : tag &&& 0x00#8 = 0x00#8 := BitVec.and_zero
  rw [hall, if_pos hnone, decodeTag]

/-- Settles O23: by the operation, and by the rows of the tag map. -/
theorem decodeUndoesEncode : Obligations.DecodeUndoesEncode := by
  refine ⟨fun i e => decode_encode, fun tag rest => ?_, fun i => eq_decode_or_pos_of_encode_none⟩
  exact ⟨decodeTag tag, rfl, decodeTag_wf_encode tag⟩

end Sys2Proof.Proofs

/-! PROOFS. The facts behind the statements about sign extension (spec/40_sign_extension.md): the cases
of `SEXT`, its masks, its signed reading, and the faults `DECODE` can answer. -/

namespace Sys2Proof.Machine

open Sys2Proof.Safety

/-! ### The cases of `SEXT` (R65, R66, R67) -/

theorem sext_of_signBit {v : Word} {len : BitVec 3} (h1 : 1 ≤ len.toNat) (h4 : len.toNat < 4)
    (hsign : signBit v len = true) :
    sext v len = .ok (v ||| (0xFFFFFFFF#32 <<< (8 * len.toNat))) := by
  have hlen : lenOk len = true := lenOk_iff.mpr ⟨h1, h4.le⟩
  rw [sext, if_neg (by simp [hlen]), if_pos ⟨h4, hsign⟩]

theorem sext_of_not_signBit {v : Word} {len : BitVec 3} (hlen : lenOk len = true)
    (hsign : signBit v len = false) : sext v len = .ok v := by
  rw [sext, if_neg (by simp [hlen]), if_neg (by simp [hsign])]

theorem sext_of_len_four {v : Word} {len : BitVec 3} (h : len.toNat = 4) : sext v len = .ok v := by
  have hlen : lenOk len = true := lenOk_iff.mpr (by omega)
  rw [sext, if_neg (by simp [hlen]), if_neg (by omega)]

theorem sext_of_illegal_len {v : Word} {len : BitVec 3} (h : len.toNat < 1 ∨ 4 < len.toNat) :
    sext v len = .error .width := by
  have hlen : lenOk len = false := by
    rw [← Bool.not_eq_true, lenOk_iff]
    omega
  rw [sext, if_pos hlen]

theorem exec_sext_of_ok {s : State} {v w : Word} {len : BitVec 3} (h : sext v len = .ok w) :
    exec (.sext v len) s = .next { s with rsp := rspIdle, unit := .word w } := by
  rw [exec, execSext, h]; rfl

theorem exec_sext_of_width {s : State} {v : Word} {len : BitVec 3} (h : sext v len = .error .width) :
    exec (.sext v len) s = .next { s with rsp := rspWidth, unit := .none } := by
  rw [exec, execSext, h]; rfl

/-! ### The masks and the signed reading (R68, R69) -/

/-- The mask of all ones shifted up by `k` covers the bits from `k` on. -/
theorem fillMask_getLsbD (k j : Nat) (hj : j < 32) :
    (0xFFFFFFFF#32 <<< k).getLsbD j = decide (k ≤ j) := by
  have hones : (0xFFFFFFFF#32) = BitVec.allOnes 32 := by decide
  have hlow : j - k < 32 := by omega
  rw [hones, BitVec.getLsbD_shiftLeft, BitVec.getLsbD_allOnes]
  by_cases hk : j < k
  · simp [hk]
  · simp [hj, hlow, hk, show k ≤ j by omega]

/-- A bit that is set already may be in the mask or not (R69). -/
theorem or_fillMask_of_getLsbD {v : Word} {k : Nat} (hbit : v.getLsbD k = true) :
    v ||| (0xFFFFFFFF#32 <<< k) = v ||| (0xFFFFFFFF#32 <<< (k + 1)) := by
  refine BitVec.eq_of_getLsbD_eq fun j hj => ?_
  rw [BitVec.getLsbD_or, BitVec.getLsbD_or, fillMask_getLsbD k j hj, fillMask_getLsbD (k + 1) j hj]
  by_cases hjk : j = k
  · simp [hjk, hbit]
  · have hiff : k ≤ j ↔ k + 1 ≤ j := by omega
    simp only [hiff]

/-- What `SEXT` returns for a clean field, read as `s32` (R68). -/
theorem sext_clean {v : Word} {len : BitVec 3} (hlen : lenOk len = true)
    (hclean : v.toNat < 2 ^ (8 * len.toNat)) :
    ∃ w, sext v len = .ok w ∧ s32 w = signedOf (8 * len.toNat) v.toNat := by
  obtain ⟨w, hw, -⟩ := sext_bits (v := v) hlen
  have hvalue := sext_value hlen hclean
  rw [hw] at hvalue
  exact ⟨w, hw, Except.ok.inj hvalue⟩

theorem signedOf_of_lt {bits u : Nat} (h : u < 2 ^ (bits - 1)) : signedOf bits u = u := by
  rw [signedOf, if_pos h]

theorem signedOf_of_ge {bits u : Nat} (h : 2 ^ (bits - 1) ≤ u) : signedOf bits u = u - 2 ^ bits := by
  rw [signedOf, if_neg (by omega)]

/-! ### The faults `DECODE` can answer (R67, R104) -/

theorem pos_ne_width (p : Payload) : pos p ≠ .error .width := by
  rw [pos_eq]
  split <;> simp

theorem posx_ne_width (p : Payload) : posx p ≠ .error .width := by
  rw [posx_eq]
  split <;> simp

/-- The parsers drive legal widths only, and every other fault of `DECODE` is a missing byte. -/
theorem decodeFix_ne_width (p : Payload) (chan : Nat) : decodeFix p chan ≠ .error .width := by
  rw [decodeFix_eq]
  split_ifs
  · simp
  · exact pos_ne_width p
  · exact posx_ne_width p
  · simp

/-- Code 2 in `rsp_fault` is the width fault's alone (R19). -/
theorem enc_fault_ne_two {o : Except Fault DecodedFix} (h : o ≠ .error .width) :
    (Rsp.enc o).fault ≠ 2 := by
  match o with
  | .ok .noResult => simp [enc_noResult, rspNoResult]
  | .ok (.position lat lon) => simp [enc_position, rspPosition]
  | .ok (.positionExtended lat lon alt hdop) => simp [enc_positionExtended, rspExtended]
  | .error .range => simp [enc_range, rspRange]
  | .error .width => exact absurd rfl h

end Sys2Proof.Machine

/-! The obligations about sign extension (spec/40_sign_extension.md). -/

namespace Sys2Proof.Proofs

open Sys2Proof.Machine Sys2Proof.Safety

/-- Settles O29: the bits by `sext_bits`, the other mask because the bit it adds is the tested one. -/
theorem sextUpperBits : Obligations.SextUpperBits := by
  intro v len h1 h3
  have hlen : lenOk len = true := lenOk_iff.mpr ⟨h1, by omega⟩
  obtain ⟨w, hw, hbits⟩ := sext_bits (v := v) hlen
  refine ⟨w, hw, fun hclear => ?_, fun j hj => ?_, fun hset => ⟨fun j hj hj32 => ?_, ?_⟩⟩
  · exact Except.ok.inj (hw.symm.trans (sext_of_not_signBit hlen hclear))
  · rw [hbits j (by omega)]
    simp [show ¬8 * len.toNat ≤ j by omega]
  · have hsign : signBit v len = true := hset
    rw [hbits j hj32]
    simp [hj, hsign]
  · rw [or_fillMask_of_getLsbD hset, show 8 * len.toNat - 1 + 1 = 8 * len.toNat by omega]
    exact Except.ok.inj (hw.symm.trans (sext_of_signBit h1 (by omega) hset))

/-- Settles O30: the two halves of the field's signed reading, which `toInt` shares. -/
theorem sextValueLaw : Obligations.SextValueLaw := by
  intro u len h1 h3 hclean
  obtain ⟨w, hw, hvalue⟩ := sext_clean (lenOk_iff.mpr ⟨h1, by omega⟩) hclean
  refine ⟨w, hw, fun hlow => ?_, fun hhigh => ?_⟩
  · rw [← s32_eq_toInt, hvalue, signedOf_of_lt hlow]
    exact ⟨rfl, rfl⟩
  · rw [← s32_eq_toInt, hvalue, signedOf_of_ge hhigh]
    exact ⟨rfl, rfl⟩

/-- Settles O55: RSP takes the idle pattern or the encoding of `DECODE`'s outcome, which is never the
width fault. -/
theorem noWidthFaultAtThePorts : Obligations.NoWidthFaultAtThePorts := by
  intro s t hcall hstep
  obtain rfl : edgeLeaves s (answer s.pins) .none = t := by simpa [step_of_noCall hcall] using hstep
  change (answer s.pins).fault ≠ 2
  rw [answer]
  split_ifs
  · simp [rspIdle]
  · exact enc_fault_ne_two (decodeFix_ne_width _ _)
  · simp [rspIdle]

/-- Settles O28, by the four cases of `sext`. -/
theorem sextFillsOrPasses : Obligations.SextFillsOrPasses := by
  intro s v len
  refine ⟨fun h1 h4 hset => ?_, fun h1 h4 hclear => ?_, fun h4 => ?_, fun hillegal => ?_⟩
  · exact exec_sext_of_ok (sext_of_signBit h1 h4 hset)
  · exact exec_sext_of_ok (sext_of_not_signBit (lenOk_iff.mpr ⟨h1, h4.le⟩) hclear)
  · exact exec_sext_of_ok (sext_of_len_four h4)
  · exact exec_sext_of_width (sext_of_illegal_len hillegal)

end Sys2Proof.Proofs

/-! PROOFS. The facts behind the statements about the extractors (spec/41_extractors.md): their two
faults, and the two byte orders as mirror images. -/

namespace Sys2Proof.Machine

open Sys2Proof.Safety

/-! ### The faults of the extractors (R71, R72) -/

theorem lenOk_eq_false {len : BitVec 3} (h : len.toNat < 1 ∨ 4 < len.toNat) : lenOk len = false := by
  rw [← Bool.not_eq_true, lenOk_iff]
  omega

theorem xlsb_of_illegal_len (p : Payload) (offset : Nat) {len : BitVec 3} (h : lenOk len = false) :
    xlsb p offset len = .error .width := by
  rw [xlsb_eq, if_pos h]

theorem xnet_of_illegal_len (p : Payload) (offset : Nat) {len : BitVec 3} (h : lenOk len = false) :
    xnet p offset len = .error .width := by
  rw [xnet_eq, if_pos h]

/-- `XLSB` raises the range fault exactly for a legal width and a field that ends past `plen`. -/
theorem xlsb_range_iff {p : Payload} {offset : Nat} {len : BitVec 3} :
    xlsb p offset len = .error .range ↔ lenOk len = true ∧ p.plen < offset + len.toNat := by
  rw [xlsb_eq]
  split_ifs with hlen hrange
  · simp [hlen]
  · simp [hlen, hrange]
  · simp [hrange]

/-- `XNET` raises the range fault in the same cases. -/
theorem xnet_range_iff {p : Payload} {offset : Nat} {len : BitVec 3} :
    xnet p offset len = .error .range ↔ lenOk len = true ∧ p.plen < offset + len.toNat := by
  rw [xnet_eq]
  split_ifs with hlen hrange
  · simp [hlen]
  · simp [hlen, hrange]
  · simp [hrange]

/-! ### The two byte orders are mirror images (R77) -/

/-- The byte with weight `8 * i` is byte `i` of the one field and byte `len - 1 - i` of the other. -/
theorem assembledLsb_eq_assembledNet_of_mirror {p q : Payload} {o o' len : Nat}
    (h : ∀ i < len, p.byte (o + i) = q.byte (o' + (len - 1 - i))) :
    assembledLsb p o len = assembledNet q o' len := by
  rw [assembledLsb, assembledNet, ← Finset.sum_range_reflect]
  refine Finset.sum_congr rfl fun i hi => ?_
  have hlt : i < len := Finset.mem_range.mp hi
  rw [h (len - 1 - i) (by omega), show len - 1 - (len - 1 - i) = i by omega]

theorem fieldLsb_eq_fieldNet_of_mirror {p q : Payload} {o o' len : Nat}
    (h : ∀ i < len, p.byte (o + i) = q.byte (o' + (len - 1 - i))) :
    fieldLsb p o len = fieldNet q o' len := by
  rw [fieldLsb, fieldNet, assembledLsb_eq_assembledNet_of_mirror h]

/-- A single byte is its own mirror image. -/
theorem fieldLsb_one_eq_fieldNet_one (p : Payload) (offset : Nat) :
    fieldLsb p offset 1 = fieldNet p offset 1 :=
  fieldLsb_eq_fieldNet_of_mirror fun i hi => by rw [show 1 - 1 - i = i by omega]

/-! ### An extractor reads its field and `plen`, nothing else (R77) -/

theorem xlsb_congr {p q : Payload} {offset : Nat} {len : BitVec 3} (hplen : p.plen = q.plen)
    (h : ∀ i < len.toNat, offset + i < p.plen → p.byte (offset + i) = q.byte (offset + i)) :
    xlsb p offset len = xlsb q offset len := by
  rw [xlsb_eq, xlsb_eq, ← hplen]
  by_cases hrange : p.plen < offset + len.toNat
  · rw [if_pos hrange, if_pos hrange]
  · rw [fieldLsb_congr fun i hi => h i hi (by omega)]

theorem xnet_congr {p q : Payload} {offset : Nat} {len : BitVec 3} (hplen : p.plen = q.plen)
    (h : ∀ i < len.toNat, offset + i < p.plen → p.byte (offset + i) = q.byte (offset + i)) :
    xnet p offset len = xnet q offset len := by
  rw [xnet_eq, xnet_eq, ← hplen]
  by_cases hrange : p.plen < offset + len.toNat
  · rw [if_pos hrange, if_pos hrange]
  · rw [fieldNet_congr fun i hi => h i hi (by omega)]

end Sys2Proof.Machine

/-! The obligations about the extractors (spec/41_extractors.md). -/

namespace Sys2Proof.Proofs

open Sys2Proof.Machine Sys2Proof.Safety

/-- Settles O34: a legal width leaves the end of the field as the only guard. -/
theorem rangeGuardOnWholeField : Obligations.RangeGuardOnWholeField := by
  intro p offset len h1 h4
  have hlen : lenOk len = true := lenOk_iff.mpr ⟨h1, h4⟩
  exact ⟨xlsb_range_iff.trans (and_iff_right hlen), xnet_range_iff.trans (and_iff_right hlen)⟩

/-- Settles O36: mirrored fields assemble to one pattern, and both extractors read only `plen` and
their field. -/
theorem extractorsAreMirrorImages : Obligations.ExtractorsAreMirrorImages := by
  refine ⟨fun p q o o' len h1 h4 hp hq hmirror => ?_, fun p o => ?_,
    fun p q o len hplen hbytes => ⟨xlsb_congr hplen hbytes, xnet_congr hplen hbytes⟩⟩
  · have hlen : lenOk len = true := lenOk_iff.mpr ⟨h1, h4⟩
    refine ⟨fieldLsb p o len.toNat, xlsb_of_inRange hlen hp, ?_⟩
    rw [fieldLsb_eq_fieldNet_of_mirror hmirror]
    exact xnet_of_inRange hlen hq
  · rw [xlsb_eq, xnet_eq, show BitVec.toNat (1 : BitVec 3) = 1 from rfl,
      fieldLsb_one_eq_fieldNet_one]

/-- Settles O33: the width guard is the first one in both extractors. -/
theorem widthGuardComesFirst : Obligations.WidthGuardComesFirst := by
  intro p offset len hillegal
  have hlen : lenOk len = false := lenOk_eq_false hillegal
  exact ⟨xlsb_of_illegal_len p offset hlen, xnet_of_illegal_len p offset hlen⟩

end Sys2Proof.Proofs

/-! PROOFS. The facts behind the statements about the scaler (spec/42_scaler.md): what rounding half to
even computes, the carry that never happens, and what the delivered pattern denotes. -/

namespace Sys2Proof.Machine

open Sys2Proof.Safety

/-! ### Rounding half to even is rounding to a nearest integer (R82) -/

theorem abs_roundHalfEven_sub_le_half {n d : ℕ} (hd : 0 < d) :
    |(roundHalfEven n d : ℚ) - n / d| ≤ 1 / 2 := by
  have hlo := Int.floor_le ((n : ℚ) / d)
  have hhi := Int.lt_floor_add_one ((n : ℚ) / d)
  rw [← Int.cast_natCast (roundHalfEven n d), roundHalfEven_eq hd, abs_le]
  dsimp only
  split_ifs with hup
  · have hhalf : 1 / 2 ≤ (n : ℚ) / d - ⌊(n : ℚ) / d⌋ := hup.elim le_of_lt fun h => h.1.ge
    push_cast
    constructor <;> linarith
  · have hhalf : (n : ℚ) / d - ⌊(n : ℚ) / d⌋ ≤ 1 / 2 := not_lt.mp fun h => hup (.inl h)
    constructor <;> linarith

/-- What lies within a half of an integer has no nearer integer. -/
theorem abs_sub_le_abs_sub_of_le_half {m : ℚ} {r : ℤ} (h : |(r : ℚ) - m| ≤ 1 / 2) (z : ℤ) :
    |(r : ℚ) - m| ≤ |(z : ℚ) - m| := by
  rcases eq_or_ne z r with rfl | hne
  · exact le_rfl
  · have hapart : (1 : ℚ) ≤ |(z : ℚ) - r| := by
      exact_mod_cast Int.one_le_abs (sub_ne_zero.mpr hne)
    have htriangle := abs_sub_le (z : ℚ) m r
    rw [abs_sub_comm m r] at htriangle
    linarith

/-! ### The significand of a quotient (R82) -/

/-- R82's `M` for the quotient `a/k`. -/
def exactSignificand (a k : ℕ) : ℚ := (a : ℚ) / k * 2 ^ (52 - floorLog2 a k)

/-- R82's rounded `R`, as `rn64` computes it in integers. -/
def significand (a k : ℕ) : ℕ :=
  roundHalfEven (a * 2 ^ (52 - floorLog2 a k).toNat) (k * 2 ^ (floorLog2 a k - 52).toNat)

/-- The two powers `rn64` multiplies by are R82's one power of two. -/
theorem exactSignificand_eq_div (a k : ℕ) :
    exactSignificand a k =
      ((a * 2 ^ (52 - floorLog2 a k).toNat : ℕ) : ℚ) / (k * 2 ^ (floorLog2 a k - 52).toNat : ℕ) := by
  rw [exactSignificand]
  push_cast
  rw [mul_div_mul_comm, ← zpow_natCast, ← zpow_natCast, ← zpow_sub₀ two_ne_zero]
  congr 2
  omega

/-- `M` in units of `2^(e-52)` is the quotient. -/
theorem exactSignificand_mul_unit (a k : ℕ) :
    exactSignificand a k * 2 ^ (floorLog2 a k - 52) = (a : ℚ) / k := by
  rw [exactSignificand, mul_assoc, ← zpow_add₀ two_ne_zero, sub_add_sub_cancel, sub_self, zpow_zero,
    mul_one]

/-- A positive container `a` and a divisor `k` of the scaler (R78). -/
structure ScalerOperand (a k : ℕ) : Prop where
  pos : 0 < a
  le : a ≤ 2 ^ 31
  divisor : k = 93206 ∨ k = 46603 ∨ k = 1000

section Operand

variable {a k : ℕ} (h : ScalerOperand a k)
include h

theorem ScalerOperand.divisor_pos : 0 < k := by
  have := h.divisor
  omega

theorem significand_eq :
    (significand a k : ℤ) =
      let r : ℤ := ⌊exactSignificand a k⌋
      let f : ℚ := exactSignificand a k - r
      if 1 / 2 < f ∨ (f = 1 / 2 ∧ r % 2 = 1) then r + 1 else r := by
  rw [exactSignificand_eq_div]
  exact roundHalfEven_eq (Nat.mul_pos h.divisor_pos (by positivity))

theorem abs_significand_sub_le_half : |((significand a k : ℤ) : ℚ) - exactSignificand a k| ≤ 1 / 2 := by
  rw [exactSignificand_eq_div, Int.cast_natCast]
  exact abs_roundHalfEven_sub_le_half (Nat.mul_pos h.divisor_pos (by positivity))

/-- Every exponent is at most 31, so the exact significand over the divisor has 21 factors two. -/
theorem exists_exactSignificand_mul_divisor :
    ∃ j : ℕ, exactSignificand a k * k = (a * 2 ^ (21 + j) : ℕ) := by
  have hk : (k : ℚ) ≠ 0 := by exact_mod_cast h.divisor_pos.ne'
  obtain ⟨-, he⟩ := floorLog2_range a k h.pos h.le h.divisor
  refine ⟨(31 - floorLog2 a k).toNat, ?_⟩
  rw [exactSignificand_eq_div, show (floorLog2 a k - 52).toNat = 0 by omega, pow_zero, mul_one,
    div_mul_cancel₀ _ hk, show (52 - floorLog2 a k).toNat = 21 + (31 - floorLog2 a k).toNat by omega]

theorem exactSignificand_bounds : 2 ^ 52 ≤ exactSignificand a k ∧ exactSignificand a k < 2 ^ 53 := by
  obtain ⟨hlo, hhi⟩ := floorLog2_bracket h.pos h.divisor_pos
  have hscale (j : ℤ) : (2 : ℚ) ^ (floorLog2 a k + j) * 2 ^ (52 - floorLog2 a k) = 2 ^ (52 + j) := by
    rw [← zpow_add₀ two_ne_zero]
    congr 1
    ring
  have hpos : (0 : ℚ) < 2 ^ (52 - floorLog2 a k) := by positivity
  constructor
  · calc (2 : ℚ) ^ 52 = 2 ^ (floorLog2 a k + 0) * 2 ^ (52 - floorLog2 a k) := by rw [hscale]; norm_num
      _ ≤ exactSignificand a k := by rw [add_zero]; exact mul_le_mul_of_nonneg_right hlo hpos.le
  · calc exactSignificand a k < 2 ^ (floorLog2 a k + 1) * 2 ^ (52 - floorLog2 a k) :=
          mul_lt_mul_of_pos_right hhi hpos
      _ = 2 ^ 53 := by rw [hscale]; norm_num

/-- `2^53 * k - M * k` is a positive multiple of `2^21`, which is more than half of any divisor: `M` is
too far below `2^53` to be rounded up to it. -/
theorem exactSignificand_lt : exactSignificand a k < 2 ^ 53 - 1 / 2 := by
  have hk : (0 : ℚ) < k := by exact_mod_cast h.divisor_pos
  obtain ⟨j, hM⟩ := exists_exactSignificand_mul_divisor h
  rw [pow_add, mul_left_comm] at hM
  have hlt : 2 ^ 21 * (a * 2 ^ j) < 2 ^ 53 * k := by
    have := mul_lt_mul_of_pos_right (exactSignificand_bounds h).2 hk
    rw [hM] at this
    exact_mod_cast this
  have hgap : 2 * (2 ^ 21 * (a * 2 ^ j)) + k < 2 ^ 54 * k := by
    have := h.divisor
    omega
  have hgap' : 2 * (exactSignificand a k * k) + k < 2 ^ 54 * k := by
    rw [hM]
    exact_mod_cast hgap
  exact lt_of_mul_lt_mul_right (by linarith) hk.le

/-- R82's carry never happens: the rounded significand has 53 bits. -/
theorem significand_bounds : 2 ^ 52 ≤ significand a k ∧ significand a k < 2 ^ 53 := by
  have hnear := abs_le.mp (abs_significand_sub_le_half h)
  have hlo := (exactSignificand_bounds h).1
  have hhi := exactSignificand_lt h
  rw [Int.cast_natCast] at hnear
  have hlow : (2 ^ 52 - 1 : ℚ) < significand a k := by linarith
  have hhigh : (significand a k : ℚ) < 2 ^ 53 := by linarith
  constructor
  · have : (2 ^ 52 : ℚ) < (significand a k + 1 : ℕ) := by push_cast; linarith
    exact Nat.lt_succ_iff.mp (by exact_mod_cast this)
  · exact_mod_cast hhigh

end Operand

/-! ### The fields of a packed pattern (R82) -/

section Pack

variable {neg : Bool} {e : ℤ} {r : ℕ}

/-- Where each bit of a packed pattern comes from. -/
theorem packF64_getLsbD (i : ℕ) :
    (packF64 neg e r).getLsbD i =
      if i < 52 then (BitVec.ofNat 52 (r - 2 ^ 52)).getLsbD i
      else if i - 52 < 11 then (BitVec.ofNat 11 (e + 1023).toNat).getLsbD (i - 52)
      else (BitVec.ofBool neg).getLsbD (i - 52 - 11) := by
  rw [← BitVec.getLsbD_append, ← BitVec.getLsbD_append]
  rfl

theorem packF64_sign : (packF64 neg e r).getLsbD 63 = neg := by
  rw [packF64_getLsbD]
  simp

theorem packF64_expField (he : -1023 ≤ e) (he' : e ≤ 1024) :
    (expField (packF64 neg e r) : ℤ) = e + 1023 := by
  have hfield : (packF64 neg e r).extractLsb' 52 11 = BitVec.ofNat 11 (e + 1023).toNat :=
    BitVec.eq_of_getLsbD_eq fun i hi => by
      rw [BitVec.getLsbD_extractLsb', packF64_getLsbD]
      simp [hi]
  rw [expField, hfield, BitVec.toNat_ofNat]
  omega

theorem packF64_fraction (hr : 2 ^ 52 ≤ r) (hr' : r < 2 ^ 53) :
    2 ^ 52 + ((packF64 neg e r).extractLsb' 0 52).toNat = r := by
  have hfield : (packF64 neg e r).extractLsb' 0 52 = BitVec.ofNat 52 (r - 2 ^ 52) :=
    BitVec.eq_of_getLsbD_eq fun i hi => by
      rw [BitVec.getLsbD_extractLsb', packF64_getLsbD]
      simp [hi]
  rw [hfield, BitVec.toNat_ofNat]
  omega

theorem normalValue_packF64 (he : -1023 ≤ e) (he' : e ≤ 1024) (hr : 2 ^ 52 ≤ r) (hr' : r < 2 ^ 53) :
    normalValue (packF64 neg e r) = (if neg then -1 else 1) * r * 2 ^ (e - 52) := by
  rw [normalValue, packF64_sign, packF64_fraction hr hr', packF64_expField he he',
    show e + 1023 - 1075 = e - 52 by ring]

end Pack

/-! ### The quotient and the pattern delivered for it (R82, R84) -/

@[simp] theorem rn64_zero (k : ℕ) : rn64 0 k = 0 := rfl

section Quotient

variable {raw : ℤ} {k : ℕ}

theorem abs_quotient (raw : ℤ) (k : ℕ) : |(raw : ℚ) / k| = (raw.natAbs : ℚ) / k := by
  rw [abs_div, Nat.abs_cast, Nat.cast_natAbs, Int.cast_abs]

theorem quotient_eq (raw : ℤ) (k : ℕ) :
    (raw : ℚ) / k =
      raw.sign * (exactSignificand raw.natAbs k * 2 ^ (floorLog2 raw.natAbs k - 52)) := by
  rw [exactSignificand_mul_unit, ← mul_div_assoc, ← Int.cast_natCast raw.natAbs, ← Int.cast_mul,
    Int.sign_mul_natAbs]

variable (h : ScalerOperand raw.natAbs k)
include h

theorem ScalerOperand.raw_ne_zero : raw ≠ 0 := Int.natAbs_pos.mp h.pos

theorem rn64_eq :
    rn64 raw k = packF64 (decide (raw < 0)) (floorLog2 raw.natAbs k) (significand raw.natAbs k) := by
  rw [rn64, if_neg h.raw_ne_zero]
  exact if_neg (significand_bounds h).2.ne

theorem rn64_sign : (rn64 raw k).getLsbD 63 = true ↔ raw < 0 := by
  rw [rn64_eq h, packF64_sign, decide_eq_true_iff]

theorem rn64_expField : (expField (rn64 raw k) : ℤ) = floorLog2 raw.natAbs k + 1023 := by
  obtain ⟨hlo, hhi⟩ := floorLog2_range _ k h.pos h.le h.divisor
  rw [rn64_eq h, packF64_expField (by omega) (by omega)]

theorem rn64_isNormal : IsNormal (rn64 raw k) := by
  have hfield := rn64_expField h
  have hrange := floorLog2_range _ k h.pos h.le h.divisor
  constructor <;> omega

theorem normalValue_rn64 :
    normalValue (rn64 raw k) =
      raw.sign * (significand raw.natAbs k * 2 ^ (floorLog2 raw.natAbs k - 52)) := by
  obtain ⟨hlo, hhi⟩ := floorLog2_range _ k h.pos h.le h.divisor
  obtain ⟨hr, hr'⟩ := significand_bounds h
  rw [rn64_eq h, normalValue_packF64 (by omega) (by omega) hr hr', mul_assoc]
  congr 1
  rcases lt_or_gt_of_ne h.raw_ne_zero with hneg | hpos
  · simp [hneg, Int.sign_eq_neg_one_of_neg hneg]
  · simp [hpos.le, Int.sign_eq_one_of_pos hpos]

/-- The error of the delivered number is the error of its significand. -/
theorem abs_normalValue_rn64_sub :
    |normalValue (rn64 raw k) - (raw : ℚ) / k| =
      |(significand raw.natAbs k : ℚ) - exactSignificand raw.natAbs k| *
        2 ^ (floorLog2 raw.natAbs k - 52) := by
  have hsign : |(raw.sign : ℚ)| = 1 := by exact_mod_cast Int.abs_sign_of_ne_zero h.raw_ne_zero
  have hunit : (0 : ℚ) < 2 ^ (floorLog2 raw.natAbs k - 52) := by positivity
  rw [normalValue_rn64 h, quotient_eq, ← mul_sub, abs_mul, hsign, one_mul, ← sub_mul, abs_mul,
    abs_of_pos hunit]

end Quotient

/-! ### `rn64` is R82's definition on the exact rational -/

theorem patternOf_congr {p q : Prop} [Decidable p] [Decidable q] (h : p ↔ q) (e r : ℤ) :
    patternOf p e r = patternOf q e r := by
  simp only [patternOf, h]

theorem isRn64_rn64 {raw : ℤ} {k : ℕ} (hle : raw.natAbs ≤ 2 ^ 31)
    (hk : k = 93206 ∨ k = 46603 ∨ k = 1000) : IsRn64 ((raw : ℚ) / k) (rn64 raw k) := by
  rcases eq_or_ne raw 0 with rfl | hne
  · exact .inl ⟨by simp, rn64_zero k⟩
  have h : ScalerOperand raw.natAbs k := ⟨Int.natAbs_pos.mpr hne, hle, hk⟩
  have hk' : (0 : ℚ) < k := by exact_mod_cast h.divisor_pos
  have hneg : raw < 0 ↔ (raw : ℚ) / k < 0 := by rw [div_lt_iff₀ hk', zero_mul, Int.cast_lt_zero]
  obtain ⟨hlo, hhi⟩ := floorLog2_bracket h.pos h.divisor_pos
  refine .inr ⟨div_ne_zero (Int.cast_ne_zero.mpr hne) hk'.ne', floorLog2 raw.natAbs k, ?_, ?_, ?_⟩
  · rwa [abs_quotient]
  · rwa [abs_quotient]
  · obtain ⟨he, he'⟩ := floorLog2_range _ k h.pos h.le h.divisor
    obtain ⟨hr, hr'⟩ := significand_bounds h
    have hsig := significand_eq h
    rw [exactSignificand] at hsig
    rw [rn64_eq h, packF64_eq _ _ _ (by omega) (by omega) hr hr', roundedAt, abs_quotient]
    rw [← hsig, if_neg (by omega)]
    exact patternOf_congr (by rw [decide_eq_true_iff, hneg]) _ _

/-! ### No normal number is nearer (R82, R86) -/

theorem abs_normalValue (c : F64) :
    |normalValue c| =
      ((2 ^ 52 + (c.extractLsb' 0 52).toNat : ℕ) : ℚ) * 2 ^ ((expField c : ℤ) - 1075) := by
  have hsign : |if c.getLsbD 63 then (-1 : ℚ) else 1| = 1 := by split <;> simp
  have hunit : (0 : ℚ) < 2 ^ ((expField c : ℤ) - 1075) := by positivity
  rw [normalValue, abs_mul, abs_mul, hsign, one_mul, Nat.abs_cast, abs_of_pos hunit]

/-- No number with a 53-bit significand is nearer to `M * 2^(e-52)` than the rounded one: with a coarser
or equal unit it is a whole number of units, with a finer one it is at most `2^52` units. -/
theorem significand_nearest {a k : ℕ} (h : ScalerOperand a k) {r : ℕ} (hr : r < 2 ^ 53) (j : ℤ) :
    |(significand a k : ℚ) - exactSignificand a k| * 2 ^ (floorLog2 a k - 52) ≤
      |(r : ℚ) * 2 ^ j - exactSignificand a k * 2 ^ (floorLog2 a k - 52)| := by
  have hunit : (0 : ℚ) < 2 ^ (floorLog2 a k - 52) := by positivity
  have hnearest := abs_sub_le_abs_sub_of_le_half (abs_significand_sub_le_half h)
  rw [Int.cast_natCast] at hnearest
  rcases le_or_gt (floorLog2 a k - 52) j with hcoarse | hfine
  · obtain ⟨i, rfl⟩ : ∃ i : ℕ, j = i + (floorLog2 a k - 52) :=
      ⟨(j - (floorLog2 a k - 52)).toNat, by omega⟩
    rw [zpow_add₀ two_ne_zero, zpow_natCast, ← mul_assoc, ← sub_mul, abs_mul, abs_of_pos hunit]
    refine mul_le_mul_of_nonneg_right ?_ hunit.le
    simpa using hnearest (r * 2 ^ i)
  · have hM := (exactSignificand_bounds h).1
    have hsmall : (r : ℚ) * 2 ^ j ≤ 2 ^ 52 * 2 ^ (floorLog2 a k - 52) := by
      calc (r : ℚ) * 2 ^ j ≤ 2 ^ 53 * 2 ^ j := by gcongr; exact_mod_cast hr.le
        _ = 2 ^ 52 * 2 ^ (j + 1) := by rw [zpow_add_one₀ two_ne_zero]; ring
        _ ≤ 2 ^ 52 * 2 ^ (floorLog2 a k - 52) := by gcongr; exacts [one_le_two, hfine]
    have hpow := hnearest (2 ^ 52)
    rw [Int.cast_pow, Int.cast_ofNat, abs_of_nonpos (sub_nonpos.mpr hM), neg_sub] at hpow
    calc |(significand a k : ℚ) - exactSignificand a k| * 2 ^ (floorLog2 a k - 52)
        ≤ (exactSignificand a k - 2 ^ 52) * 2 ^ (floorLog2 a k - 52) :=
          mul_le_mul_of_nonneg_right hpow hunit.le
      _ ≤ exactSignificand a k * 2 ^ (floorLog2 a k - 52) - r * 2 ^ j := by
          rw [sub_mul]
          exact sub_le_sub_left hsmall _
      _ ≤ |(r : ℚ) * 2 ^ j - exactSignificand a k * 2 ^ (floorLog2 a k - 52)| := by
          rw [abs_sub_comm]
          exact le_abs_self _

theorem rn64_nearest {raw : ℤ} {k : ℕ} (h : ScalerOperand raw.natAbs k) (c : F64) :
    |normalValue (rn64 raw k) - (raw : ℚ) / k| ≤ |normalValue c - (raw : ℚ) / k| := by
  have hfrac : 2 ^ 52 + (c.extractLsb' 0 52).toNat < 2 ^ 53 := by
    have := (c.extractLsb' 0 52).isLt
    omega
  calc |normalValue (rn64 raw k) - (raw : ℚ) / k|
      ≤ |(|normalValue c| - |(raw : ℚ) / k|)| := by
        rw [abs_normalValue_rn64_sub h, abs_normalValue, abs_quotient,
          ← exactSignificand_mul_unit]
        exact significand_nearest h hfrac _
    _ ≤ |normalValue c - (raw : ℚ) / k| := abs_abs_sub_abs_le _ _

/-! ### No tie, and when the result is exact (R85) -/

theorem eq_floorLog2_of_bracket {a k : ℕ} (h : ScalerOperand a k) {e : ℤ}
    (hlo : (2 : ℚ) ^ e ≤ (a : ℚ) / k) (hhi : (a : ℚ) / k < (2 : ℚ) ^ (e + 1)) :
    e = floorLog2 a k := by
  obtain ⟨hlo', hhi'⟩ := floorLog2_bracket h.pos h.divisor_pos
  have h1 : e < floorLog2 a k + 1 :=
    (zpow_lt_zpow_iff_right₀ one_lt_two).mp (hlo.trans_lt hhi')
  have h2 : floorLog2 a k < e + 1 :=
    (zpow_lt_zpow_iff_right₀ one_lt_two).mp (hlo'.trans_lt hhi)
  omega

/-- A half would make `k * (2 * ⌊M⌋ + 1)` a multiple of `2^22`. -/
theorem exactSignificand_not_tie {a k : ℕ} (h : ScalerOperand a k) :
    exactSignificand a k - ⌊exactSignificand a k⌋ ≠ 1 / 2 := by
  intro htie
  obtain ⟨j, hj⟩ := exists_exactSignificand_mul_divisor h
  have hM : exactSignificand a k = ⌊exactSignificand a k⌋ + 1 / 2 := by linarith
  generalize ⌊exactSignificand a k⌋ = f at hM
  rw [hM] at hj
  have hint : (2 * f + 1) * k = 2 ^ 22 * (a * 2 ^ j : ℕ) := by
    have : ((2 * f + 1) * k : ℚ) = 2 ^ 22 * (a * 2 ^ j : ℕ) := by
      push_cast at hj ⊢
      rw [pow_add] at hj
      linarith
    exact_mod_cast this
  rcases h.divisor with rfl | rfl | rfl <;> push_cast at hint <;> omega

/-- The significand is exact precisely when the divisor's odd part divides the operand. -/
theorem significand_exact_iff {a k odd i : ℕ} (h : ScalerOperand a k) (hk : k = odd * 2 ^ i)
    (hi : i ≤ 21) (hodd : Nat.Coprime odd 2) :
    (significand a k : ℚ) = exactSignificand a k ↔ odd ∣ a := by
  have hk0 : (k : ℚ) ≠ 0 := by exact_mod_cast h.divisor_pos.ne'
  obtain ⟨j, hj⟩ := exists_exactSignificand_mul_divisor h
  constructor
  · intro hexact
    rw [← hexact] at hj
    have hproduct : significand a k * k = a * 2 ^ (21 + j) := by exact_mod_cast hj
    have hdvd : odd ∣ a * 2 ^ (21 + j) :=
      (Dvd.intro _ hk.symm).trans (Dvd.intro_left _ hproduct)
    exact (hodd.pow_right _).dvd_of_dvd_mul_right hdvd
  · rintro ⟨b, hb⟩
    have hwhole : exactSignificand a k = ((b * 2 ^ (21 + j - i) : ℕ) : ℤ) := by
      have hsplit : 2 ^ (21 + j) = 2 ^ i * 2 ^ (21 + j - i) := by
        rw [← pow_add]
        congr 1
        omega
      have hfactor : a * 2 ^ (21 + j) = b * 2 ^ (21 + j - i) * k := by
        rw [hsplit, hb, hk]
        ring
      rw [hfactor, Nat.cast_mul] at hj
      exact mul_right_cancel₀ hk0 hj
    have hnear := abs_sub_le_abs_sub_of_le_half (abs_significand_sub_le_half h)
      ((b * 2 ^ (21 + j - i) : ℕ) : ℤ)
    rw [← hwhole, sub_self, abs_zero, Int.cast_natCast] at hnear
    exact sub_eq_zero.mp (abs_nonpos_iff.mp hnear)

theorem normalValue_rn64_exact_iff {raw : ℤ} {k : ℕ} (h : ScalerOperand raw.natAbs k) :
    normalValue (rn64 raw k) = (raw : ℚ) / k ↔
      (significand raw.natAbs k : ℚ) = exactSignificand raw.natAbs k := by
  have hunit : (2 : ℚ) ^ (floorLog2 raw.natAbs k - 52) ≠ 0 := by positivity
  rw [← sub_eq_zero, ← abs_eq_zero, abs_normalValue_rn64_sub h, mul_eq_zero_iff_right hunit,
    abs_eq_zero, sub_eq_zero]

/-! ### The operands a payload gives (R79 to R81) -/

section Payload

variable {raw : ℤ} {k odd : ℕ} (h : ScalerCase k odd raw)
include h

theorem scalerOperand_of_scalerCase (hne : raw ≠ 0) : ScalerOperand raw.natAbs k := by
  rw [ScalerCase] at h
  constructor <;> omega

theorem odd_part_of_scalerCase : ∃ i ≤ 3, k = odd * 2 ^ i ∧ Nat.Coprime odd 2 := by
  rcases h with ⟨⟨rfl, rfl⟩ | ⟨rfl, rfl⟩, -⟩ | ⟨⟨rfl, rfl⟩, -⟩
  · exact ⟨1, by decide⟩
  · exact ⟨0, by decide⟩
  · exact ⟨3, by decide⟩

theorem floorLog2_le_seven_of_scalerCase (hne : raw ≠ 0) : floorLog2 raw.natAbs k ≤ 7 := by
  have hop := scalerOperand_of_scalerCase h hne
  have hk : (0 : ℚ) < k := by exact_mod_cast hop.divisor_pos
  have hlt : raw.natAbs < 2 ^ 8 * k := by
    rw [ScalerCase] at h
    omega
  have hquot : (raw.natAbs : ℚ) / k < 2 ^ (8 : ℤ) := by
    rw [div_lt_iff₀ hk]
    exact_mod_cast hlt
  have := (zpow_lt_zpow_iff_right₀ one_lt_two).mp
    ((floorLog2_bracket hop.pos hop.divisor_pos).1.trans_lt hquot)
  omega

end Payload

/-! ### The scale operations called on their own -/

theorem natAbs_toInt_le (raw : Word) : raw.toInt.natAbs ≤ 2 ^ 31 := by
  have hlo := BitVec.le_toInt raw
  have hhi := BitVec.toInt_lt (x := raw)
  omega

section Call

variable (s : State) (raw : Word)

theorem exec_scaleLat :
    exec (.scaleLat raw) s = .next { s with rsp := rspIdle, unit := .float (rn64 raw.toInt 93206) } := by
  rw [← s32_eq_toInt]; rfl

theorem exec_scaleLon :
    exec (.scaleLon raw) s = .next { s with rsp := rspIdle, unit := .float (rn64 raw.toInt 46603) } := by
  rw [← s32_eq_toInt]; rfl

theorem exec_scaleHdop :
    exec (.scaleHdop raw) s = .next { s with rsp := rspIdle, unit := .float (rn64 raw.toInt 1000) } := by
  rw [← s32_eq_toInt]; rfl

theorem exec_scalePass :
    exec (.scalePass raw) s = .next { s with rsp := rspIdle, unit := .int raw.toInt } := by
  rw [← s32_eq_toInt]; rfl

end Call

end Sys2Proof.Machine

/-! The obligations about the scaler (spec/42_scaler.md). -/

namespace Sys2Proof.Proofs

open Sys2Proof.Machine Sys2Proof.Safety

/-- Settles O38: `rn64` is R82's definition for every container and the three divisors. -/
theorem scalerAnswersRn64 : Obligations.ScalerAnswersRn64 := by
  intro s raw
  have hle := natAbs_toInt_le raw
  exact ⟨⟨_, exec_scaleLat s raw, by exact_mod_cast isRn64_rn64 hle (.inl rfl)⟩,
    ⟨_, exec_scaleLon s raw, by exact_mod_cast isRn64_rn64 hle (.inr (.inl rfl))⟩,
    ⟨_, exec_scaleHdop s raw, by exact_mod_cast isRn64_rn64 hle (.inr (.inr rfl))⟩⟩

/-- Settles O39: the rounded significand is a nearest one in every unit. -/
theorem noNormalNumberIsNearer : Obligations.NoNormalNumberIsNearer := by
  intro raw k hlo hhi hne hk
  have h : ScalerOperand raw.natAbs k := ⟨Int.natAbs_pos.mpr hne, by omega, hk⟩
  exact ⟨rn64_isNormal h, fun c _ => rn64_nearest h c⟩

/-- Settles O40, by counting factors two: `raw * 2^(52-e)` has more than `K`. -/
theorem noTiesAndExactResults : Obligations.NoTiesAndExactResults := by
  intro k odd raw hcase hne
  have h := scalerOperand_of_scalerCase hcase hne
  obtain ⟨i, hi, hk, hodd⟩ := odd_part_of_scalerCase hcase
  constructor
  · intro e hlo hhi
    rw [abs_quotient] at hlo hhi ⊢
    rw [eq_floorLog2_of_bracket h hlo hhi]
    exact exactSignificand_not_tie h
  · rw [normalValue_rn64_exact_iff h, significand_exact_iff h hk (by omega) hodd, Int.natCast_dvd]

/-- Settles O41: the exponent field is the quotient's own exponent, because no carry happens. -/
theorem scaledResultsAreNormal : Obligations.ScaledResultsAreNormal := by
  intro k odd raw hcase
  refine ⟨fun hzero => by rw [hzero, rn64_zero], fun hne => ?_⟩
  have h := scalerOperand_of_scalerCase hcase hne
  obtain ⟨hlo, -⟩ := floorLog2_range _ k h.pos h.le h.divisor
  have hhi := floorLog2_le_seven_of_scalerCase hcase hne
  have hfield := rn64_expField h
  refine ⟨by omega, by omega, rn64_sign h, floorLog2 raw.natAbs k, hlo, hhi, ?_⟩
  rw [abs_quotient]
  exact floorLog2_bracket h.pos h.divisor_pos

/-- Settles O42: R87's own values, and the three constants one by one. -/
theorem quotientsAreNeverIntegers : Obligations.QuotientsAreNeverIntegers := by
  refine ⟨by decide, rn64_zero _, rn64_zero _, rn64_zero _, fun s c => ?_, fun raw => rfl⟩
  cases c with
  | kLat => exact (by decide : Config.kLat ≠ 0)
  | kLon => exact (by decide : Config.kLon ≠ 0)
  | kHdop => exact (by decide : Config.kHdop ≠ 0)

/-- Settles O43: the unit reads the container as an integer, and writing that integer back is the
container. -/
theorem passReturnsItsOperand : Obligations.PassReturnsItsOperand :=
  fun s raw => ⟨exec_scalePass s raw, BitVec.ofInt_toInt⟩

end Sys2Proof.Proofs

/-! PROOFS. The facts behind the statements about the parsers (spec/43_format_parsers.md): what RSP
shows of a parser's outcome, and a row of a parser's table as two units' calls. -/

namespace Sys2Proof.Machine

open Sys2Proof.Safety

/-! ### What RSP shows of a parser's outcome (R89, R90, R91) -/

/-- The bytes of the P7 layout are the two fields `POS` extracts and scales (R46). -/
theorem answerP7_eq (p : Payload) :
    answerP7 p = rspPosition (scaleLat (fieldLsb p 1 3)) (scaleLon (fieldLsb p 4 3)) := by
  rw [fieldLsb, fieldLsb, assembledLsb_three, assembledLsb_three]; rfl

/-- The bytes of the P11 layout are the four fields `POSX` extracts and scales (R47). -/
theorem answerP11_eq (p : Payload) :
    answerP11 p = rspExtended (scaleLat (fieldNet p 1 3)) (scaleLon (fieldNet p 4 3))
      (scalePass (fieldNet p 7 2)) (scaleHdop (fieldNet p 9 2)) := by
  rw [fieldNet, fieldNet, fieldNet, fieldNet, assembledNet_three, assembledNet_three,
    assembledNet_two, assembledNet_two]
  rfl

theorem enc_pos (p : Payload) :
    Rsp.enc (pos p) = if p.plen < 7 then rspRange else answerP7 p := by
  rw [pos_eq, apply_ite Rsp.enc, enc_range, enc_position, answerP7_eq]

theorem enc_posx (p : Payload) :
    Rsp.enc (posx p) = if p.plen < 11 then rspRange else answerP11 p := by
  rw [posx_eq, apply_ite Rsp.enc, enc_range, enc_positionExtended, answerP11_eq]

theorem pos_range_iff {p : Payload} : pos p = .error .range ↔ p.plen < 7 := by
  rw [pos_eq]
  split_ifs with h
  · simp [h]
  · simp [h]

theorem posx_range_iff {p : Payload} : posx p = .error .range ↔ p.plen < 11 := by
  rw [posx_eq]
  split_ifs with h
  · simp [h]
  · simp [h]

/-- The `Fault(RANGE)` row of R19 encodes that fault and no other outcome. -/
theorem enc_eq_rspRange_iff {o : Except Fault DecodedFix} :
    Rsp.enc o = rspRange ↔ o = .error .range := by
  match o with
  | .ok .noResult => simp [enc_noResult, rspNoResult, rspRange]
  | .ok (.position lat lon) => simp [enc_position, rspPosition, rspRange]
  | .ok (.positionExtended lat lon alt hdop) =>
    simp [enc_positionExtended, rspExtended, rspRange]
  | .error .range => simp [enc_range]
  | .error .width => simp [enc_width, rspWidth, rspRange]

theorem responds_complete_iff {o : Except Fault DecodedFix} {s : State} {r : Rsp} :
    Responds (complete o s) r ↔ Rsp.enc o = r := by
  simp [Responds, complete_next]

/-- `POS` and the arms of its two tags are one operation (R95, R96). -/
theorem exec_posArm {i : Instr} (hi : i ∈ [.pos, .pos1, .pos2]) (s : State) :
    exec i s = complete (pos s.pins.payload) s := by
  simp only [List.mem_cons, List.not_mem_nil, or_false] at hi
  obtain rfl | rfl | rfl := hi
  · rfl
  · rfl
  · rfl

theorem exec_posx (s : State) : exec .posx s = complete (posx s.pins.payload) s := rfl

/-- With all of P7's bytes present, the whole next state (R91). -/
theorem exec_posArm_of_seven_le {i : Instr} (hi : i ∈ [.pos, .pos1, .pos2]) {s : State}
    (h : 7 ≤ s.pins.payload.plen) :
    exec i s = .next { s with rsp := answerP7 s.pins.payload, unit := .none } := by
  rw [exec_posArm hi, complete_next, enc_pos, if_neg (by omega)]

/-- With all of P11's bytes present, the whole next state (R91). -/
theorem exec_posx_of_eleven_le {s : State} (h : 11 ≤ s.pins.payload.plen) :
    exec .posx s = .next { s with rsp := answerP11 s.pins.payload, unit := .none } := by
  rw [exec_posx, complete_next, enc_posx, if_neg (by omega)]

/-- A bench's call wins over a request (log 4). -/
theorem selectAction_of_call {e : Edge} {i : Instr} (hrst : e.rst = false) (hcall : e.call = some i) :
    selectAction e = .run i := by
  simp [selectAction, hrst, hcall]

/-! ### A row of a parser's table: the extraction, then the scaling (R60, R93) -/

section Extraction

variable {s : State} {offset : Nat} {len : BitVec 3} (hlen : lenOk len = true)

include hlen

/-- A row with `ord = 0`: its field in LSB order. -/
theorem exec_ord_lsb (h : offset + len.toNat ≤ s.pins.payload.plen) :
    exec (decodeOrd 0 offset len) s =
      .next { s with rsp := rspIdle, unit := .int (fieldLsb s.pins.payload offset len.toNat) } :=
  exec_xlsb_of_ok (xlsb_of_inRange hlen h)

/-- A row with `ord = 1`: its field in network order. -/
theorem exec_ord_net (h : offset + len.toNat ≤ s.pins.payload.plen) :
    exec (decodeOrd 1 offset len) s =
      .next { s with rsp := rspIdle, unit := .int (fieldNet s.pins.payload offset len.toNat) } :=
  exec_xnet_of_ok (xnet_of_inRange hlen h)

end Extraction

/-- A value of at most 32 bits is read back from the container (R9). -/
theorem toInt_u32 {bits : Nat} {n : Int} (hbits : bits ≤ 32) (hn : FitsSigned bits n) :
    (u32 n).toInt = n := by
  have hpow : (2 : Int) ^ (bits - 1) ≤ 2 ^ 31 := pow_le_pow_right₀ (by norm_num) (by omega)
  obtain ⟨hlo, hhi⟩ := hn
  exact BitVec.toInt_ofInt_eq_self (by norm_num) (by norm_num; omega) (by norm_num; omega)

/-! Every extracted field fits the container, so the scaler reads back the field itself (R51). -/

section Container

variable (p : Payload) (offset : Nat) {len : BitVec 3} (hlen : lenOk len = true)

include hlen

theorem toInt_u32_fieldLsb :
    (u32 (fieldLsb p offset len.toNat)).toInt = fieldLsb p offset len.toNat := by
  obtain ⟨h1, h4⟩ := lenOk_iff.mp hlen
  exact toInt_u32 (bits := 8 * len.toNat) (by omega) (signedOf_fits (by omega) (assembledLsb_lt ..))

theorem toInt_u32_fieldNet :
    (u32 (fieldNet p offset len.toNat)).toInt = fieldNet p offset len.toNat := by
  obtain ⟨h1, h4⟩ := lenOk_iff.mp hlen
  exact toInt_u32 (bits := 8 * len.toNat) (by omega) (signedOf_fits (by omega) (assembledNet_lt ..))

end Container

section Scaling

variable (s : State) {n : Int} (hn : (u32 n).toInt = n)

include hn

theorem exec_ksel_lat : exec (decodeKsel 0 (u32 n)) s =
    .next { s with rsp := rspIdle, unit := .float (scaleLat n) } :=
  (exec_scaleLat s (u32 n)).trans (by rw [hn]; rfl)

theorem exec_ksel_lon : exec (decodeKsel 1 (u32 n)) s =
    .next { s with rsp := rspIdle, unit := .float (scaleLon n) } :=
  (exec_scaleLon s (u32 n)).trans (by rw [hn]; rfl)

theorem exec_ksel_hdop : exec (decodeKsel 2 (u32 n)) s =
    .next { s with rsp := rspIdle, unit := .float (scaleHdop n) } :=
  (exec_scaleHdop s (u32 n)).trans (by rw [hn]; rfl)

theorem exec_ksel_pass : exec (decodeKsel 3 (u32 n)) s =
    .next { s with rsp := rspIdle, unit := .int n } :=
  (exec_scalePass s (u32 n)).trans (by rw [hn])

end Scaling

end Sys2Proof.Machine

/-! The obligations about the parsers (spec/43_format_parsers.md). -/

namespace Sys2Proof.Proofs

open Sys2Proof.Machine Sys2Proof.Safety

/-- Settles O47: every field fits the container, so the scaler called with `u32` of it scales the
field itself. -/
theorem parsersRunTheirFieldTables : Obligations.ParsersRunTheirFieldTables := by
  intro s
  have h2 : lenOk 2 = true := by decide
  have h3 : lenOk 3 = true := by decide
  refine ⟨fun hplen => ?_, fun hplen => ?_⟩
  · have hpos := exec_posArm_of_seven_le (i := .pos) (by simp) hplen
    rw [answerP7_eq] at hpos
    exact ⟨_, _, _, _,
      exec_ord_lsb h3 (hplen.trans' (by decide)), exec_ksel_lat s (toInt_u32_fieldLsb _ 1 h3),
      exec_ord_lsb h3 (hplen.trans' (by decide)), exec_ksel_lon s (toInt_u32_fieldLsb _ 4 h3),
      hpos⟩
  · have hposx := exec_posx_of_eleven_le hplen
    rw [answerP11_eq] at hposx
    exact ⟨_, _, _, _, _, _, _,
      exec_ord_net h3 (hplen.trans' (by decide)), exec_ksel_lat s (toInt_u32_fieldNet _ 1 h3),
      exec_ord_net h3 (hplen.trans' (by decide)), exec_ksel_lon s (toInt_u32_fieldNet _ 4 h3),
      exec_ord_net h2 (hplen.trans' (by decide)), exec_ksel_pass s (toInt_u32_fieldNet _ 7 h2),
      exec_ord_net h2 (hplen.trans' (by decide)), exec_ksel_hdop s (toInt_u32_fieldNet _ 9 h2),
      hposx⟩

/-- Settles O44: all three run `POS`, and RSP shows its outcome. -/
theorem posAnswersThePosition : Obligations.PosAnswersThePosition :=
  fun _ _ hi h => ⟨_, exec_posArm_of_seven_le hi h, rfl⟩

/-- Settles O45: RSP shows the outcome of `POSX`. -/
theorem posxAnswersTheExtendedPosition : Obligations.PosxAnswersTheExtendedPosition :=
  fun _ h => ⟨_, exec_posx_of_eleven_le h, rfl⟩

/-- Settles O46: RSP shows the `Fault(RANGE)` row exactly where the parser raises that fault. -/
theorem parsersNeedTheirLength : Obligations.ParsersNeedTheirLength := by
  refine ⟨fun p => ⟨pos_range_iff, posx_range_iff⟩, fun s => ⟨fun i hi => ?_, ?_⟩⟩
  · rw [exec_posArm (List.mem_cons_of_mem _ hi), responds_complete_iff, enc_eq_rspRange_iff,
      pos_range_iff]
  · rw [exec_posx, responds_complete_iff, enc_eq_rspRange_iff, posx_range_iff]

/-- Settles O57: `POS` ends like a transaction, and the edge that carries its call runs it and moves
on. -/
theorem posCalledAloneShowsItsOutcome : Obligations.PosCalledAloneShowsItsOutcome := by
  intro s r
  have hr : Rsp.enc (pos s.pins.payload) = r := enc_pos s.pins.payload
  have hexec : exec .pos s = complete (pos s.pins.payload) s := exec_posArm (by simp) s
  refine ⟨by rw [hexec, complete_next, hr], fun hrst hcall => ?_⟩
  rw [step_of_run (selectAction_of_call hrst hcall), hexec, afterEdge_complete, hr]

end Sys2Proof.Proofs

/-! PROOFS. The facts behind the statements about the dispatcher (spec/44_dispatcher.md): the arm a
tag selects, what a request is answered, the tag read off a table word. -/

namespace Sys2Proof.Machine

open Sys2Proof.Safety

/-! ### What `DECODE` does with a tag (R95, R96, R98, R99) -/

theorem decodeFix_eq_pos {p : Payload} (hlen : 1 ≤ p.plen) (htag : tagIsP7 p) (chan : Nat) :
    decodeFix p chan = pos p := by
  rw [decodeFix_eq, if_neg (by omega), if_pos htag]

theorem decodeFix_eq_noResult {p : Payload} (hlen : 1 ≤ p.plen) (hP7 : ¬tagIsP7 p)
    (hP11 : ¬tagIsP11 p) (chan : Nat) : decodeFix p chan = .ok .noResult := by
  rw [decodeFix_eq, if_neg (by omega), if_neg hP7, if_neg hP11]

/-- `DECODE` does not consult the channel: what it can do (`decodeFix_eq`) names none (R99). -/
theorem decodeFix_chan (p : Payload) (chan chan' : Nat) : decodeFix p chan = decodeFix p chan' :=
  (decodeFix_eq p chan).trans (decodeFix_eq p chan').symm

theorem exec_noResult (tag : Byte) (s : State) :
    exec (.noResult tag) s = complete (.ok .noResult) s := rfl

/-! ### What a request is answered (R26, R94) -/

theorem responds_of_requests {s : State} (h : Requests s) :
    Responds (step s) (Rsp.enc (decodeFix s.pins.payload s.pins.reqChan)) :=
  ⟨_, (step_of_requests h).trans (afterEdge_complete _ s), rfl⟩

/-- A request's step is the operation its tag selects, moved on to the host's next edge. -/
theorem step_eq_exec_decodeTag {s : State} {tag : Byte} (h : Requests s)
    (hread : s.pins.payload.memRead 0 = .ok tag) : step s = afterEdge (exec (decodeTag tag) s) := by
  rw [step_of_requests h, exec_decodeTag hread]

/-- Two requests of which `DECODE` makes the same get the same response, whatever else of the two
states differs. -/
theorem exists_common_response {s t : State} (hs : Requests s) (ht : Requests t)
    (h : decodeFix s.pins.payload s.pins.reqChan = decodeFix t.pins.payload t.pins.reqChan) :
    ∃ r : Rsp, Responds (step s) r ∧ Responds (step t) r :=
  ⟨_, responds_of_requests hs, h ▸ responds_of_requests ht⟩

/-! ### The tag read off a table word (log 10) -/

/-- Bytes that select an operation have a byte 0, and the tag read finds it. -/
theorem memRead_zero_of_decodePayload {bytes : List Byte} {i : Instr}
    (h : (decodePayload bytes).toOption = some i) :
    ∃ tag, (Payload.ofBytes bytes).memRead 0 = .ok tag ∧ decodeTag tag = i := by
  cases bytes with
  | nil => cases h
  | cons tag rest =>
    have hread : (Payload.ofBytes (tag :: rest)).memRead 0 = .ok tag := by
      rw [Payload.memRead_of_lt (by simp), Payload.ofBytes_byte]; rfl
    exact ⟨tag, hread, Option.some.inj h⟩

theorem requests_withFetchWord (s : State) (nbits w : Nat) : Requests (s.withFetchWord nbits w) :=
  ⟨rfl, rfl, rfl⟩

end Sys2Proof.Machine

/-! The obligations about the dispatcher (spec/44_dispatcher.md). -/

namespace Sys2Proof.Proofs

open Sys2Proof.Machine Sys2Proof.Safety

/-- Settles O50: with a byte 0 present the tag read gives it, and a request's edge runs `DECODE`. -/
theorem decodeRunsTheTagsOperation : Obligations.DecodeRunsTheTagsOperation :=
  ⟨fun _ hlen => (exec_decodeTag (Payload.memRead_of_lt hlen)).symm, fun _ => step_of_requests⟩

/-- Settles O51: both tags run `POS`, which reads `plen` and the bytes from index 1 on. -/
theorem tagsOneAndTwoAreAlike : Obligations.TagsOneAndTwoAreAlike := by
  intro s t hs ht hplen hlen htag htag' hbytes
  refine exists_common_response hs ht ?_
  calc decodeFix s.pins.payload s.pins.reqChan
    _ = pos s.pins.payload := decodeFix_eq_pos hlen (.inl htag) _
    _ = pos t.pins.payload := pos_congr hplen fun i h1 _ hi => hbytes i h1 hi
    _ = decodeFix t.pins.payload t.pins.reqChan :=
      (decodeFix_eq_pos (hplen ▸ hlen) (.inr htag') _).symm

/-- Settles O53: `DECODE` makes the same of payloads that agree on what it may read. -/
theorem decodeReadsOnlyItsFields : Obligations.DecodeReadsOnlyItsFields :=
  fun _ _ hs ht hreads => exists_common_response hs ht (decodeFix_congr hreads _ _)

/-- Settles O7: a table word on the pins is a request with its tag as byte 0, so the first clause
covers it too. -/
theorem stepRunsDecodedOperation : Obligations.StepRunsDecodedOperation := by
  refine ⟨fun _ _ => step_eq_exec_decodeTag,
    fun _ _ hrst hcall => step_of_run (selectAction_of_call hrst hcall),
    fun s nbits w i hword => ?_,
    fun t => congrArg Host.Outcome.next (toNextEdge_eq_edgeLeaves t)⟩
  obtain ⟨tag, hread, rfl⟩ := memRead_zero_of_decodePayload hword
  exact step_eq_exec_decodeTag (requests_withFetchWord s nbits w) hread

/-- Settles O48: past the three exact tags `DECODE` answers `NoResult`, as the arm itself always
does. -/
theorem otherTagsGiveNoResult : Obligations.OtherTagsGiveNoResult := by
  refine ⟨fun s tag => ?_, fun s h hlen h1 h2 h5 => ?_⟩
  · rw [exec_noResult, responds_complete_iff, enc_noResult]
  · have hfix := decodeFix_eq_noResult hlen (not_or.mpr ⟨h1, h2⟩) h5 s.pins.reqChan
    rw [← enc_noResult, ← hfix]
    exact responds_of_requests h

/-- Settles O52: the channel changes no outcome of `DECODE`, so it changes no answer. -/
theorem channelIsIgnored : Obligations.ChannelIsIgnored :=
  ⟨decodeFix_chan, fun s chan hcall =>
    step_congr_of_answer (e' := s.pins) hcall hcall
      (answer_congr rfl rfl fun _ => decodeFix_chan s.pins.payload chan s.pins.reqChan)⟩

end Sys2Proof.Proofs

/-! PROOFS. The facts behind the statements about faults (spec/60_exceptions.md): how a fault is
delivered, `DECODE` on an empty payload and under tag 5, what an edge reads of what the edge before
wrote. -/

namespace Sys2Proof.Machine

open Sys2Proof.Safety

/-! ### A unit's fault, and RSP's fault patterns (R106) -/

theorem exec_xlsb_of_error {s : State} {offset : Nat} {len : BitVec 3} {f : Fault}
    (h : xlsb s.pins.payload offset len = .error f) :
    exec (.xlsb offset len) s = .next (takeFault f s) := by
  rw [exec, execXlsb, h]; rfl

theorem exec_xnet_of_error {s : State} {offset : Nat} {len : BitVec 3} {f : Fault}
    (h : xnet s.pins.payload offset len = .error f) :
    exec (.xnet offset len) s = .next (takeFault f s) := by
  rw [exec, execXnet, h]; rfl

theorem takeFault_range (s : State) :
    takeFault .range s = { s with rsp := rspRange, unit := .none } := rfl

theorem takeFault_width (s : State) :
    takeFault .width s = { s with rsp := rspWidth, unit := .none } := rfl

/-- Kind 3 is shown in the two fault rows of R19 only. -/
theorem legitRsp_of_kind_three {r : Rsp} (h : LegitRsp r) (hkind : r.kind = 3) :
    r = rspRange ∨ r = rspWidth := by
  obtain rfl | rfl | ⟨lat, lon, rfl⟩ | ⟨lat, lon, alt, hdop, rfl⟩ | hfault := legitRsp_row h
  · simp [rspIdle] at hkind
  · simp [rspNoResult] at hkind
  · simp [rspPosition] at hkind
  · simp [rspExtended] at hkind
  · exact hfault

/-- An operation that ends in a fault returns no unit value: a transaction never does, and a
unit's call that returns one leaves RSP idle. -/
theorem unit_none_of_kind_three {i : Instr} {s t : State} (h : exec i s = .next t)
    (hkind : t.rsp.kind = 3) : t.unit = .none := by
  obtain ⟨-, o, ho⟩ | ⟨-, o, ho, hvalue⟩ := exec_completes i s
  · exact (complete_leaves (ho ▸ h)).1
  · obtain ⟨-, hidle⟩ | ⟨hnone, -⟩ := completeUnit_leaves hvalue (ho ▸ h)
    · simp [hidle, rspIdle] at hkind
    · exact hnone

/-! ### `DECODE` on an empty payload and under tag 5 (R94, R103) -/

theorem exec_decode (s : State) :
    exec .decode s = complete (decodeFix s.pins.payload s.pins.reqChan) s := rfl

theorem decodeFix_of_empty {p : Payload} (h : p.plen = 0) (chan : Nat) :
    decodeFix p chan = .error .range := by
  rw [decodeFix_eq, if_pos h]

theorem decodeFix_eq_posx {p : Payload} (hlen : 1 ≤ p.plen) (htag : tagIsP11 p) (chan : Nat) :
    decodeFix p chan = posx p := by
  have hnotP7 : ¬tagIsP7 p := by rw [tagIsP7, htag]; decide
  rw [decodeFix_eq, if_neg (by omega), if_neg hnotP7, if_pos htag]

/-! ### An edge reads nothing an edge has written (R25, R112) -/

/-- An operation reads neither RSP nor the unit's wires: both of its ends overwrite them. -/
theorem exec_overwrites (i : Instr) (s : State) (r : Rsp) (u : UnitOut) :
    exec i { s with rsp := r, unit := u } = exec i s := by
  have whole (o : Except Fault DecodedFix) :
      complete o { s with rsp := r, unit := u } = complete o s := by
    rw [complete_next, complete_next]
  have unit (o : Except Fault UnitOut) :
      completeUnit o { s with rsp := r, unit := u } = completeUnit o s := by
    cases o with
    | ok v => rfl
    | error f => rfl
  cases i with
  | pos1 => exact whole _
  | pos2 => exact whole _
  | posx => exact whole _
  | noResult tag => exact whole (.ok .noResult)
  | decode => exact whole _
  | pos => exact whole _
  | xlsb offset len => exact unit _
  | xnet offset len => exact unit _
  | sext v len => exact unit _
  | scaleLat raw => exact unit (.ok (.float _))
  | scaleLon raw => exact unit (.ok (.float _))
  | scaleHdop raw => exact unit (.ok (.float _))
  | scalePass raw => exact unit (.ok (.int _))

/-- A step reads neither RSP nor the unit's wires. -/
theorem step_overwrites (s : State) (r : Rsp) (u : UnitOut) :
    step { s with rsp := r, unit := u } = step s := by
  cases h : selectAction s.pins with
  | idle => rw [step_of_idle (s := { s with rsp := r, unit := u }) h, step_of_idle h]; rfl
  | fault f => rw [step_of_fault (s := { s with rsp := r, unit := u }) h, step_of_fault h]; rfl
  | run i =>
    rw [step_of_run (s := { s with rsp := r, unit := u }) h, step_of_run h, exec_overwrites]

/-- What an edge puts into RSP and on the unit's wires does not matter to the edge after it. -/
theorem step_edgeLeaves (s : State) (r r' : Rsp) (u u' : UnitOut) :
    step (edgeLeaves s r u) = step (edgeLeaves s r' u') :=
  step_overwrites (edgeLeaves s r' u') r u

end Sys2Proof.Machine

/-! The obligations about faults (spec/60_exceptions.md). -/

namespace Sys2Proof.Proofs

open Sys2Proof.Machine Sys2Proof.Safety

/-- Settles O49: the rows are the branches of `DECODE`, each parser's split at its length. -/
theorem decodeOutcomeTable : Obligations.DecodeOutcomeTable := by
  rintro s p rfl
  simp only [exec_decode, responds_complete_iff]
  refine ⟨fun h => ?_, fun h1 h6 htag => ?_, fun h1 h10 htag => ?_, fun h1 hP7 hP11 => ?_,
    fun h7 htag => ?_, fun h11 htag => ?_⟩
  · rw [decodeFix_of_empty h, enc_range]
  · rw [decodeFix_eq_pos h1 htag, enc_pos, if_pos (by omega)]
  · rw [decodeFix_eq_posx h1 htag, enc_posx, if_pos (by omega)]
  · rw [decodeFix_eq_noResult h1 hP7 hP11, enc_noResult]
  · rw [decodeFix_eq_pos (by omega) htag, enc_pos, if_neg (by omega)]
  · rw [decodeFix_eq_posx (by omega) htag, enc_posx, if_neg (by omega)]

/-- Settles O54: RSP is a row of R19's table with kind 3, and the rest is the frame of `exec`. -/
theorem faultShowsOnlyItsCode : Obligations.FaultShowsOnlyItsCode := by
  intro i s t h hkind
  have hunit : t.unit = .none := unit_none_of_kind_three h hkind
  obtain ⟨r, u, hnext, hr⟩ := exec_next i s
  obtain rfl : { s with rsp := r, unit := u } = t := by simpa [hnext] using h
  obtain rfl : u = .none := hunit
  obtain rfl | rfl := legitRsp_of_kind_three hr hkind
  · exact .inl rfl
  · exact .inr rfl

/-- Settles O12: what the first edge wrote is all that can differ between the two states, and the
next edge overwrites it unread. -/
theorem faultLeavesNothingBehind : Obligations.FaultLeavesNothingBehind := by
  intro s t t' e e' hstep hstep'
  obtain ⟨r, u, hnext, -⟩ := step_next { s with pins := e }
  obtain ⟨r', u', hnext', -⟩ := step_next { s with pins := e' }
  obtain rfl : edgeLeaves s r u = t := Host.Outcome.next.inj (hnext.symm.trans hstep)
  obtain rfl : edgeLeaves s r' u' = t' := Host.Outcome.next.inj (hnext'.symm.trans hstep')
  exact step_edgeLeaves s r r' u u'

/-- Settles O35: both extractors take the fault their guards raise. -/
theorem extractorFaultsAreDelivered : Obligations.ExtractorFaultsAreDelivered := by
  intro s offset len
  rw [← takeFault_width, ← takeFault_range]
  refine ⟨fun hillegal => ?_, fun h1 h4 hpast => ?_⟩
  · have hlen : lenOk len = false := lenOk_eq_false hillegal
    exact ⟨exec_xlsb_of_error (xlsb_of_illegal_len _ offset hlen),
      exec_xnet_of_error (xnet_of_illegal_len _ offset hlen)⟩
  · have hlen : lenOk len = true := lenOk_iff.mpr ⟨h1, h4⟩
    exact ⟨exec_xlsb_of_error (xlsb_range_iff.mpr ⟨hlen, hpast⟩),
      exec_xnet_of_error (xnet_range_iff.mpr ⟨hlen, hpast⟩)⟩

/-- Settles O8: a request is answered by `DECODE`'s outcome, which on an empty payload is the range
fault. -/
theorem emptyRequestIsRangeFault : Obligations.EmptyRequestIsRangeFault := by
  intro s h hempty
  rw [← enc_range, ← decodeFix_of_empty hempty s.pins.reqChan]
  exact responds_of_requests h

end Sys2Proof.Proofs

/-! PROOFS. The facts behind the statements about reset and hazards
(spec/70_reset_and_hazards.md): the reset edge, a run of any length, the caller's contract. -/

namespace Sys2Proof.Machine

open Sys2Proof.Safety

/-! ### The reset edge (R121, R123) -/

/-- A reset edge's next state: it names neither the request nor anything else on the pins. -/
theorem step_of_rst {s : State} (h : s.pins.rst = true) :
    step s = .next (edgeLeaves s rspIdle .none) :=
  step_eq_of_idle (selectAction_of_rst h)

theorem responds_idle_of_rst {s : State} (h : s.pins.rst = true) : Responds (step s) rspIdle :=
  ⟨_, step_of_rst h, rfl⟩

/-! ### A run of any length (R131, R136) -/

/-- A machine whose every step answers a next state never stops. -/
theorem coreRun_next {M : Host.Core} (hstep : ∀ s, ∃ t, M.step s = .next t) (n : Nat) (s : M.State) :
    ∃ t, M.run n s = .next t := by
  induction n generalizing s with
  | zero => exact ⟨s, rfl⟩
  | succ n ih =>
    obtain ⟨t, ht⟩ := hstep s
    rw [coreRun_succ M n ht]
    exact ih t

/-! ### The caller's contract (R126) -/

theorem not_tagIsP11_of_tagIsP7 {p : Payload} (h : tagIsP7 p) : ¬tagIsP11 p := by
  rcases h with htag | htag
  · rw [tagIsP11, htag]; decide
  · rw [tagIsP11, htag]; decide

/-- `DECODE` raises the range fault exactly when the contract is broken: each layout's length is what
its parser needs. -/
theorem decodeFix_range_iff (p : Payload) (chan : Nat) :
    decodeFix p chan = .error .range ↔ ¬MeetsContract p := by
  by_cases hlen : 1 ≤ p.plen
  · by_cases hP7 : tagIsP7 p
    · rw [decodeFix_eq_pos hlen hP7, pos_range_iff]
      simp [MeetsContract, hlen, hP7, not_tagIsP11_of_tagIsP7 hP7]
    · by_cases hP11 : tagIsP11 p
      · rw [decodeFix_eq_posx hlen hP11, posx_range_iff]
        simp [MeetsContract, hlen, hP7, iff_true_intro hP11]
      · rw [decodeFix_eq_noResult hlen hP7 hP11]
        simp [MeetsContract, hlen, hP7, hP11]
  · rw [decodeFix_of_empty (by omega)]
    simp [MeetsContract, hlen]

/-- With the contract met no fault is left: the range fault would break it, and `DECODE` never raises
the width fault. -/
theorem exists_decodeFix_ok {p : Payload} (h : MeetsContract p) (chan : Nat) :
    ∃ fix, decodeFix p chan = .ok fix := by
  match hfix : decodeFix p chan with
  | .ok fix => exact ⟨fix, rfl⟩
  | .error .range => exact absurd h ((decodeFix_range_iff p chan).mp hfix)
  | .error .width => exact absurd hfix (decodeFix_ne_width p chan)

theorem transact_of_ok {p : Payload} {chan : Nat} {fix : DecodedFix}
    (h : decodeFix p chan = .ok fix) : transact p chan = .next fix := by
  rw [transact, h]

theorem transact_of_error {p : Payload} {chan : Nat} {f : Fault}
    (h : decodeFix p chan = .error f) : transact p chan = .fault f := by
  rw [transact, h]

end Sys2Proof.Machine

/-! The obligations about reset and hazards (spec/70_reset_and_hazards.md). -/

namespace Sys2Proof.Proofs

open Sys2Proof.Machine Sys2Proof.Safety

/-- Settles O2: a reset edge's next state does not name the request, and a request's edge before it
shows `DECODE`'s outcome. -/
theorem resetWinsOverRequest : Obligations.ResetWinsOverRequest := by
  refine ⟨fun s p chan hrst => ?_, fun s h => ?_⟩
  · intro asking
    have hasking : asking.pins.rst = true := hrst
    have hsame : edgeLeaves asking rspIdle .none = edgeLeaves s rspIdle .none := rfl
    exact ⟨responds_idle_of_rst hasking, by rw [step_of_rst hasking, step_of_rst hrst, hsame]⟩
  · obtain ⟨t, hstep, hrsp⟩ := responds_of_requests h
    exact ⟨t, hstep, hrsp, by rw [hrsp, Rsp.enc_valid], responds_idle_of_rst⟩

/-- Settles O10: a step can do nothing but move on to the host's next edge, so no run stops. -/
theorem theBlockNeverStops : Obligations.TheBlockNeverStops := by
  have hstep (s : State) :
      ∃ t, step s = .next t ∧ t.pins = nextPins s ∧ t.upcoming = nextUpcoming s := by
    obtain ⟨r, u, hnext, -⟩ := step_next s
    exact ⟨edgeLeaves s r u, hnext, rfl, rfl⟩
  exact ⟨hstep, coreRun_next (M := core) fun s => (hstep s).imp fun _ ht => ht.1⟩

/-- Settles O56: the range fault is raised exactly when the contract is broken, and no other fault is
ever raised. -/
theorem contractDecidesTheFault : Obligations.ContractDecidesTheFault := by
  refine fun p chan => ⟨fun hmet => ?_, fun hbroken => ⟨?_, ?_⟩⟩
  · obtain ⟨fix, hfix⟩ := exists_decodeFix_ok hmet chan
    exact ⟨fix, transact_of_ok hfix, hfix⟩
  · exact transact_of_error ((decodeFix_range_iff p chan).mpr hbroken)
  · rintro s h rfl
    rw [← enc_range, ← (decodeFix_range_iff _ s.pins.reqChan).mpr hbroken]
    exact responds_of_requests h

/-- Settles O1: a reset edge leaves the idle pattern, which is RSP after reset; the constants are the
same in every state. -/
theorem resetEdgeIsCompleteReset : Obligations.ResetEdgeIsCompleteReset :=
  fun _ hrst => ⟨_, step_of_rst hrst, rfl, idle_eq_rspIdle.symm, fun _ => rfl⟩

/-- Settles O11: power-up and reset differ in RSP alone, which a step overwrites unread. -/
theorem edgeForgetsOldResponse : Obligations.EdgeForgetsOldResponse :=
  ⟨step_overwrites,
    fun e rest => step_overwrites { State.reset with pins := e, upcoming := rest }
      State.powerUp.rsp .none,
    step_eq_of_idle (selectAction_of_noRequest rfl rfl)⟩

end Sys2Proof.Proofs
